-- ==== Sys2Proof/Word.lean ====
section
/-! DEFINITION. The widths of the machine's values (spec/00_scope.md R5, R7, R8): 16-bit words, 8-bit characters,
3-bit register indices. Arithmetic on `Word` is modulo 2^16 (R11), which is what `BitVec` addition does. -/

namespace Sys2Proof

/-- R5, R8: a register, a memory word, an instruction word or an address: an unsigned 16-bit value. -/
abbrev Word := BitVec 16

/-- R70: a character of the I/O adapter, 8 bits. -/
abbrev Byte := BitVec 8

/-- R21, R97: a 3-bit register index; value v names Rv. -/
abbrev RegIdx := BitVec 3

end Sys2Proof
end

