-- ==== Sys2Proof/Syntax.lean ====
section
/-! DEFINITION. Instructions as data: one constructor for each row of spec/opcode_table.json (spec/30_encoding.md R84 to
R95, R103). An argument named `ign` holds the ignored bits of its format (R98), in the order they stand in the word;
nothing that executes an instruction looks at them, but the word a fault records (R34) has them (assumption 3).
The rows with their own spelling (RET, the trap services, BRn ... BRnzp) are constructors too; which one a word decodes
to is settled in WellFormed.lean and Decode.lean (assumption 4). -/

namespace Sys2Proof

/-- R82: the sixteen opcodes, in the order of their values. -/
inductive Opcode where
  | br | add | ld | st | jsr | and | ldr | str | rti | not | ldi | sti | jmp | res | lea | trap
  deriving DecidableEq, Repr

/-- The rows of the opcode table. -/
inductive Instr where
  /-- BR (R85, R190); `mask` is {n, z, p}. -/
  | br (mask : BitVec 3) (off : BitVec 9)
  /-- ADD, register form (R86, R140). -/
  | addReg (dr sr1 : RegIdx) (ign : BitVec 2) (sr2 : RegIdx)
  /-- ADD, immediate form (R87, R141). -/
  | addImm (dr sr1 : RegIdx) (imm : BitVec 5)
  /-- LD (R89, R161). -/
  | ld (dr : RegIdx) (off : BitVec 9)
  /-- ST (R89, R165). -/
  | st (sr : RegIdx) (off : BitVec 9)
  /-- JSR (R91, R192). -/
  | jsr (off : BitVec 11)
  /-- JSRR (R92, R193). -/
  | jsrr (ign : BitVec 2) (base : RegIdx) (ign' : BitVec 6)
  /-- AND, register form (R86, R142). -/
  | andReg (dr sr1 : RegIdx) (ign : BitVec 2) (sr2 : RegIdx)
  /-- AND, immediate form (R87, R143). -/
  | andImm (dr sr1 : RegIdx) (imm : BitVec 5)
  /-- LDR (R90, R163). -/
  | ldr (dr base : RegIdx) (off : BitVec 6)
  /-- STR (R90, R167). -/
  | str (sr base : RegIdx) (off : BitVec 6)
  /-- RTI (R95, R240). -/
  | rti (ign : BitVec 12)
  /-- NOT (R88, R144). -/
  | notReg (dr sr : RegIdx) (ign : BitVec 6)
  /-- LDI (R89, R162). -/
  | ldi (dr : RegIdx) (off : BitVec 9)
  /-- STI (R89, R166). -/
  | sti (sr : RegIdx) (off : BitVec 9)
  /-- JMP (R93, R191). -/
  | jmp (ign : BitVec 3) (base : RegIdx) (ign' : BitVec 6)
  /-- RES (R95, R241). -/
  | res (ign : BitVec 12)
  /-- LEA (R89, R164). -/
  | lea (dr : RegIdx) (off : BitVec 9)
  /-- TRAP (R94, R210). -/
  | trap (ign : BitVec 4) (vect : BitVec 8)
  /-- RET, which is JMP R7 (R103, R191). -/
  | ret (ign : BitVec 3) (ign' : BitVec 6)
  /-- GETC, TRAP x20 (R103, R211). -/
  | getc (ign : BitVec 4)
  /-- OUT, TRAP x21 (R103, R212). -/
  | out (ign : BitVec 4)
  /-- PUTS, TRAP x22 (R103, R213). -/
  | puts (ign : BitVec 4)
  /-- IN, TRAP x23 (R103, R214). -/
  | inp (ign : BitVec 4)
  /-- PUTSP, TRAP x24 (R103, R215). -/
  | putsp (ign : BitVec 4)
  /-- HALT, TRAP x25 (R103, R216). -/
  | halt (ign : BitVec 4)
  /-- BRn, the BR of mask 100 (R103, R190). -/
  | brn (off : BitVec 9)
  /-- BRz, the BR of mask 010 (R103, R190). -/
  | brz (off : BitVec 9)
  /-- BRp, the BR of mask 001 (R103, R190). -/
  | brp (off : BitVec 9)
  /-- BRnz, the BR of mask 110 (R103, R190). -/
  | brnz (off : BitVec 9)
  /-- BRnp, the BR of mask 101 (R103, R190). -/
  | brnp (off : BitVec 9)
  /-- BRzp, the BR of mask 011 (R103, R190). -/
  | brzp (off : BitVec 9)
  /-- BRnzp, the BR of mask 111 (R103, R190). -/
  | brnzp (off : BitVec 9)
  deriving DecidableEq, Repr

end Sys2Proof
end

