-- ==== Sys2Proof/WellFormed.lean ====
section
/-! DEFINITION. Which instructions a word decodes to. Every field admits every value (spec/30_encoding.md R83, R97, R99),
so the one check is spelling: where the table gives some words of a row a row of their own (R103), that row's
constructor is the well-formed one (assumption 4). -/

namespace Sys2Proof

/-- The vectors of R210 that have a service, and so a row of their own. -/
def isServiceVector (v : BitVec 8) : Bool := 0x20#8 ≤ v && v ≤ 0x25#8

/-- A well-formed instruction is written with the most particular row that its word has: BR only for mask 000, JMP for a
base other than R7, TRAP for a vector with no service. -/
def Instr.wf : Instr → Bool
  | .br mask _ => mask == 0#3
  | .jmp _ base _ => base != 7#3
  | .trap _ vect => !isServiceVector vect
  | .addReg _ _ _ _ => true
  | .addImm _ _ _ => true
  | .ld _ _ => true
  | .st _ _ => true
  | .jsr _ => true
  | .jsrr _ _ _ => true
  | .andReg _ _ _ _ => true
  | .andImm _ _ _ => true
  | .ldr _ _ _ => true
  | .str _ _ _ => true
  | .rti _ => true
  | .notReg _ _ _ => true
  | .ldi _ _ => true
  | .sti _ _ => true
  | .res _ => true
  | .lea _ _ => true
  | .ret _ _ => true
  | .getc _ => true
  | .out _ => true
  | .puts _ => true
  | .inp _ => true
  | .putsp _ => true
  | .halt _ => true
  | .brn _ => true
  | .brz _ => true
  | .brp _ => true
  | .brnz _ => true
  | .brnp _ => true
  | .brzp _ => true
  | .brnzp _ => true

end Sys2Proof
end

