-- ==== Sys2Proof/Decode.lean ====
section
/-! DEFINITION. The decoder and the encoder (spec/30_encoding.md). Decoding a word is pure and total (R83): it selects by
bits 15:12, then by bit 5 for ADD and AND and bit 11 for JSR/JSRR (R104), and then by the words that the table gives a
row of their own (R103). The encoder is written from the formats R85 to R95. -/

namespace Sys2Proof

/-- R82: the value of each opcode. -/
def Opcode.value : Opcode → BitVec 4
  | .br => 0b0000#4
  | .add => 0b0001#4
  | .ld => 0b0010#4
  | .st => 0b0011#4
  | .jsr => 0b0100#4
  | .and => 0b0101#4
  | .ldr => 0b0110#4
  | .str => 0b0111#4
  | .rti => 0b1000#4
  | .not => 0b1001#4
  | .ldi => 0b1010#4
  | .sti => 0b1011#4
  | .jmp => 0b1100#4
  | .res => 0b1101#4
  | .lea => 0b1110#4
  | .trap => 0b1111#4

/-- R82: the opcode of a 4-bit value; each of the sixteen values names one. -/
def Opcode.ofBits (b : BitVec 4) : Opcode :=
  match b.getLsbD 3, b.getLsbD 2, b.getLsbD 1, b.getLsbD 0 with
  | false, false, false, false => .br
  | false, false, false, true => .add
  | false, false, true, false => .ld
  | false, false, true, true => .st
  | false, true, false, false => .jsr
  | false, true, false, true => .and
  | false, true, true, false => .ldr
  | false, true, true, true => .str
  | true, false, false, false => .rti
  | true, false, false, true => .not
  | true, false, true, false => .ldi
  | true, false, true, true => .sti
  | true, true, false, false => .jmp
  | true, true, false, true => .res
  | true, true, true, false => .lea
  | true, true, true, true => .trap

/-- R7: the field `w[lo+len-1 : lo]`. -/
def field (w : Word) (lo len : Nat) : BitVec len := w.extractLsb' lo len

/-- R81: the opcode of a word is its bits 15:12. -/
def opcodeOf (w : Word) : Opcode := Opcode.ofBits (field w 12 4)

/-- R85, R103: the BR word of a mask, by the row its mask has. -/
def brOfMask (mask : BitVec 3) (off : BitVec 9) : Instr :=
  match mask.getLsbD 2, mask.getLsbD 1, mask.getLsbD 0 with
  | false, false, false => .br 0#3 off
  | false, false, true => .brp off
  | false, true, false => .brz off
  | false, true, true => .brzp off
  | true, false, false => .brn off
  | true, false, true => .brnp off
  | true, true, false => .brnz off
  | true, true, true => .brnzp off

/-- R93, R103: the JMP word of a base register; a base of R7 is RET. -/
def jmpOfBase (ign : BitVec 3) (base : RegIdx) (ign' : BitVec 6) : Instr :=
  if base = 7#3 then .ret ign ign' else .jmp ign base ign'

/-- R94, R103: the TRAP word of a vector, by the service the vector has. -/
def trapOfVector (ign : BitVec 4) (vect : BitVec 8) : Instr :=
  if vect = 0x20#8 then .getc ign
  else if vect = 0x21#8 then .out ign
  else if vect = 0x22#8 then .puts ign
  else if vect = 0x23#8 then .inp ign
  else if vect = 0x24#8 then .putsp ign
  else if vect = 0x25#8 then .halt ign
  else .trap ign vect

/-- R83, R104, R123: `decode(w)`. -/
def decode (w : Word) : Instr :=
  match opcodeOf w with
  | .br => brOfMask (field w 9 3) (field w 0 9)
  | .add =>
    if w.getLsbD 5 then .addImm (field w 9 3) (field w 6 3) (field w 0 5)
    else .addReg (field w 9 3) (field w 6 3) (field w 3 2) (field w 0 3)
  | .ld => .ld (field w 9 3) (field w 0 9)
  | .st => .st (field w 9 3) (field w 0 9)
  | .jsr =>
    if w.getLsbD 11 then .jsr (field w 0 11)
    else .jsrr (field w 9 2) (field w 6 3) (field w 0 6)
  | .and =>
    if w.getLsbD 5 then .andImm (field w 9 3) (field w 6 3) (field w 0 5)
    else .andReg (field w 9 3) (field w 6 3) (field w 3 2) (field w 0 3)
  | .ldr => .ldr (field w 9 3) (field w 6 3) (field w 0 6)
  | .str => .str (field w 9 3) (field w 6 3) (field w 0 6)
  | .rti => .rti (field w 0 12)
  | .not => .notReg (field w 9 3) (field w 6 3) (field w 0 6)
  | .ldi => .ldi (field w 9 3) (field w 0 9)
  | .sti => .sti (field w 9 3) (field w 0 9)
  | .jmp => jmpOfBase (field w 9 3) (field w 6 3) (field w 0 6)
  | .res => .res (field w 0 12)
  | .lea => .lea (field w 9 3) (field w 0 9)
  | .trap => trapOfVector (field w 8 4) (field w 0 8)

/-- The opcode of an instruction, by its row of the table (R82). -/
def Instr.opcode : Instr → Opcode
  | .br _ _ => .br
  | .addReg _ _ _ _ => .add
  | .addImm _ _ _ => .add
  | .ld _ _ => .ld
  | .st _ _ => .st
  | .jsr _ => .jsr
  | .jsrr _ _ _ => .jsr
  | .andReg _ _ _ _ => .and
  | .andImm _ _ _ => .and
  | .ldr _ _ _ => .ldr
  | .str _ _ _ => .str
  | .rti _ => .rti
  | .notReg _ _ _ => .not
  | .ldi _ _ => .ldi
  | .sti _ _ => .sti
  | .jmp _ _ _ => .jmp
  | .res _ => .res
  | .lea _ _ => .lea
  | .trap _ _ => .trap
  | .ret _ _ => .jmp
  | .getc _ => .trap
  | .out _ => .trap
  | .puts _ => .trap
  | .inp _ => .trap
  | .putsp _ => .trap
  | .halt _ => .trap
  | .brn _ => .br
  | .brz _ => .br
  | .brp _ => .br
  | .brnz _ => .br
  | .brnp _ => .br
  | .brzp _ => .br
  | .brnzp _ => .br

/-- R85: `0000 n z p ooooooooo`. -/
def brWord (mask : BitVec 3) (off : BitVec 9) : Word := 0b0000#4 ++ mask ++ off

/-- R93: `1100 xxx bbb xxxxxx`. -/
def jmpWord (ign : BitVec 3) (base : RegIdx) (ign' : BitVec 6) : Word := 0b1100#4 ++ ign ++ base ++ ign'

/-- R94: `1111 xxxx vvvvvvvv`. -/
def trapWord (ign : BitVec 4) (vect : BitVec 8) : Word := 0b1111#4 ++ ign ++ vect

/-- R85 to R95, R103: the word of an instruction. -/
def encode : Instr → Word
  | .br mask off => brWord mask off
  | .addReg dr sr1 ign sr2 => 0b0001#4 ++ dr ++ sr1 ++ 0b0#1 ++ ign ++ sr2
  | .addImm dr sr1 imm => 0b0001#4 ++ dr ++ sr1 ++ 0b1#1 ++ imm
  | .ld dr off => 0b0010#4 ++ dr ++ off
  | .st sr off => 0b0011#4 ++ sr ++ off
  | .jsr off => 0b0100#4 ++ 0b1#1 ++ off
  | .jsrr ign base ign' => 0b0100#4 ++ 0b0#1 ++ ign ++ base ++ ign'
  | .andReg dr sr1 ign sr2 => 0b0101#4 ++ dr ++ sr1 ++ 0b0#1 ++ ign ++ sr2
  | .andImm dr sr1 imm => 0b0101#4 ++ dr ++ sr1 ++ 0b1#1 ++ imm
  | .ldr dr base off => 0b0110#4 ++ dr ++ base ++ off
  | .str sr base off => 0b0111#4 ++ sr ++ base ++ off
  | .rti ign => 0b1000#4 ++ ign
  | .notReg dr sr ign => 0b1001#4 ++ dr ++ sr ++ ign
  | .ldi dr off => 0b1010#4 ++ dr ++ off
  | .sti sr off => 0b1011#4 ++ sr ++ off
  | .jmp ign base ign' => jmpWord ign base ign'
  | .res ign => 0b1101#4 ++ ign
  | .lea dr off => 0b1110#4 ++ dr ++ off
  | .trap ign vect => trapWord ign vect
  | .ret ign ign' => jmpWord ign 7#3 ign'
  | .getc ign => trapWord ign 0x20#8
  | .out ign => trapWord ign 0x21#8
  | .puts ign => trapWord ign 0x22#8
  | .inp ign => trapWord ign 0x23#8
  | .putsp ign => trapWord ign 0x24#8
  | .halt ign => trapWord ign 0x25#8
  | .brn off => brWord 0b100#3 off
  | .brz off => brWord 0b010#3 off
  | .brp off => brWord 0b001#3 off
  | .brnz off => brWord 0b110#3 off
  | .brnp off => brWord 0b101#3 off
  | .brzp off => brWord 0b011#3 off
  | .brnzp off => brWord 0b111#3 off

/-- Why a run of words gives no instruction. A word never does (R83); only the absence of one. -/
inductive DecodeError where
  /-- There is no word to decode. -/
  | noWord
  /-- The bits given are not the one 16-bit word that every instruction is (R80). -/
  | notOneWord
  deriving DecidableEq, Repr

/-- R80: the first instruction of a run of words, which is its first word, and the words after it. -/
def decodeWords : List Word → Except DecodeError (Instr × List Word)
  | [] => .error .noWord
  | w :: rest => .ok (decode w, rest)

/-- The word of `nbits` bits whose value is `w`, bits above `nbits` zero, as the opcode table numbers them. -/
def tableWord (nbits w : Nat) : Word := BitVec.ofNat 16 (w % 2 ^ nbits)

/-- The instruction the decoder reads from an instruction whose bits are `w`. A table row longer than one word, or of no
bits, is no instruction of this machine (R80). -/
def decodeTable (nbits w : Nat) : Except DecodeError Instr :=
  if nbits = 0 then .error .noWord
  else if 16 < nbits then .error .notOneWord
  else (decodeWords [tableWord nbits w]).map Prod.fst

/-- The host's question about a row of the table. -/
def decodeTableWord (nbits w : Nat) : Option Instr := (decodeTable nbits w).toOption

end Sys2Proof
end

