-- ==== Sys2Proof/Machine/Bits.lean ====
section
/-! DEFINITION. The bit operations of spec/00_scope.md R9 and R10. -/

namespace Sys2Proof.Machine

/-- R9: `sext_k(f)`: if bit k-1 of the field is 1, the field or'ed with `0xFFFF << k`, else the field. -/
def sext {k : Nat} (f : BitVec k) : Word :=
  if f.msb then f.setWidth 16 ||| (0xFFFF#16 <<< k) else f.setWidth 16

/-- R10: `zext_16(b)`. -/
def zext16 (b : Byte) : Word := b.setWidth 16

/-- R10: `low8(v) = v[7:0]`. -/
def low8 (v : Word) : Byte := v.extractLsb' 0 8

/-- R10: `high8(v) = v[15:8]`. -/
def high8 (v : Word) : Byte := v.extractLsb' 8 8

end Sys2Proof.Machine
end

