-- ==== Sys2Proof/Config.lean ====
section
/-! DEFINITION. The named parameters of spec/00_scope.md R6 that are fixed for one machine, and the free values the
source leaves to the I/O adapter. The parameters are plain data, so that a claim over every state holds for every
setting of them (assumption 5); the free values have no body, so that no proof can see one (assumption 10). -/

namespace Sys2Proof

/-- D4: what a KBSR poll does to KBSR bits 14:0 and KBDR bits 15:8. -/
inductive KbPollWrite where
  | wholeWord
  | topBitOnly
  deriving DecidableEq, Repr

/-- D10: whether the string scans of PUTS and PUTSP read through the KBSR hook. -/
inductive TrapStringRead where
  | plain
  | hooked
  deriving DecidableEq, Repr

/-- D12: whether JSRR writes R7 before or after it reads its base register. -/
inductive JsrrOrder where
  | linkFirst
  | baseFirst
  deriving DecidableEq, Repr

/-- R6: the parameters a machine is built with. The three INIT parameters are arguments of `new` (R281), which alone
uses them. -/
structure Config where
  /-- `KBSR_ADDR` (D3). -/
  kbsrAddr : Word
  /-- `KBDR_ADDR` (D3). -/
  kbdrAddr : Word
  /-- `KB_POLL_WRITE` (D4). -/
  kbPollWrite : KbPollWrite
  /-- `NO_CHAR_VALUE` (D6): R0 after GETC or IN when no character arrives. -/
  noCharValue : Word
  /-- `IN_PROMPT` (D8). -/
  inPrompt : List Byte
  /-- `TRAP_STRING_READ` (D10). -/
  trapStringRead : TrapStringRead
  /-- `JSRR_ORDER` (D12). -/
  jsrrOrder : JsrrOrder
  deriving DecidableEq, Repr

/-- R6: the domain of the parameters; the two keyboard addresses are distinct. -/
abbrev Config.wf (c : Config) : Prop := c.kbsrAddr ≠ c.kbdrAddr

/-- The reference values of spec/92_eei_decisions.md D3 to D12; the prompt is the bytes of "Enter a character: ".
PRESUMED by the spec itself for the two addresses and the prompt (general knowledge, G7, G10); assumption 5. -/
def Config.reference : Config where
  kbsrAddr := 0xFE00#16
  kbdrAddr := 0xFE02#16
  kbPollWrite := .wholeWord
  noCharValue := 0x0000#16
  inPrompt :=
    [0x45#8, 0x6E#8, 0x74#8, 0x65#8, 0x72#8, 0x20#8, 0x61#8, 0x20#8, 0x63#8, 0x68#8, 0x61#8, 0x72#8, 0x61#8, 0x63#8,
      0x74#8, 0x65#8, 0x72#8, 0x3A#8, 0x20#8]
  trapStringRead := .plain
  jsrrOrder := .linkFirst

/-- D25: `READ_TIMEOUT`, the argument of every `ReadChar`: an opaque policy of the adapter. -/
opaque Config.readTimeout : Nat

/-- R71: the adapter's answer to its n-th call when that call is a `KeyAvailable` no script answers: a free value. -/
opaque Config.freeKeyAvailable : (call : Nat) → Bool

/-- R71: the adapter's answer to its n-th call when that call is a `ReadChar` no script answers: a character, or none
on timeout or end of input: a free value. -/
opaque Config.freeReadChar : (timeout call : Nat) → Option Byte

end Sys2Proof
end

