-- ==== Sys2Proof/Machine/Memory.lean ====
section
/-! DEFINITION. The stored words of memory (spec/20_memory.md R50, R51): a list of (address, word) cells in one canonical
form, over all 65536 addresses. The cell is the 16-bit word, the machine's addressable unit (assumption 12). The KBSR
hook is not here but in Ops.lean: these are the stored words `M[a]`. -/

namespace Sys2Proof.Machine

/-- A listed address and its word. -/
abbrev Memory := List (Nat × Word)

/-- What an address that is not listed reads as. DESIGN CHOICE: the spec leaves `INIT_MEM` open (R73, D16; assumption 8);
every other initial content is a list of cells. -/
def unlistedWord : Word := 0x0000#16

/-- R50: the number of addresses. -/
def memorySize : Nat := 65536

/-- The stored word `M[a]`. -/
def Memory.read : Memory → Nat → Word
  | [], _ => unlistedWord
  | c :: m, a => if c.1 = a then c.2 else Memory.read m a

/-- The cells without those of an address. -/
def Memory.erase (m : Memory) (a : Nat) : Memory := m.filter fun c => c.1 != a

/-- The cells with one more, before the first cell of a greater address. -/
def Memory.insert : Memory → Nat → Word → Memory
  | [], a, v => [(a, v)]
  | c :: m, a, v => if a < c.1 then (a, v) :: c :: m else c :: Memory.insert m a v

/-- `M[a] <- v`: writing what an unlisted address reads as takes the cell away. -/
def Memory.write (m : Memory) (a : Nat) (v : Word) : Memory :=
  if v = unlistedWord then Memory.erase m a else Memory.insert (Memory.erase m a) a v

/-- R281: the words of an image at consecutive addresses. -/
def Memory.writeWords : Memory → Nat → List Word → Memory
  | m, _, [] => m
  | m, a, w :: ws => Memory.writeWords (Memory.write m a w) (a + 1) ws

/-- The canonical form: addresses of the space, strictly rising, none listed with the word of an unlisted address. -/
abbrev Memory.wf (m : Memory) : Prop :=
  m.Pairwise (fun c d => c.1 < d.1) ∧ ∀ c ∈ m, c.1 < memorySize ∧ c.2 ≠ unlistedWord

end Sys2Proof.Machine
end

