-- ==== Sys2Proof/Machine/State.lean ====
section
/-! DEFINITION. The state of the machine as plain data (spec/10_state.md, spec/20_memory.md), the reasons a step can stop,
and the state after reset. -/

namespace Sys2Proof.Machine

/-- R251: the five causes of a fatal fault. -/
inductive FaultReason where
  | reservedRti
  | reservedRes
  | unknownTrap
  | stringWrap
  | adapterContract
  deriving DecidableEq, Repr

/-- R34: what a FAULTED machine holds of its fault. -/
structure FaultRecord where
  reason : FaultReason
  /-- The instruction word of the faulting step; absent when the fetch read itself faulted. -/
  word : Option Word
  /-- The fetch address of the faulting step. -/
  addr : Word
  deriving DecidableEq, Repr

/-- R33: the run state; the record of R34 exists exactly in FAULTED. -/
inductive RunState where
  | running
  | halted
  | faulted (record : FaultRecord)
  deriving DecidableEq, Repr

/-- R72: one output event of the core. -/
inductive OutEvent where
  /-- `WriteChar(b)`. -/
  | char (b : Byte)
  /-- `Flush()`. -/
  | flush
  deriving DecidableEq, Repr

/-- R70, R71: the adapter's answers, which are inputs of the machine from outside: those already fixed, oldest first, and
the number of `KeyAvailable` and `ReadChar` calls made, which picks the free answer once a script is used up
(assumption 10). -/
structure Adapter where
  keyAnswers : List Bool
  charAnswers : List (Option Byte)
  calls : Nat
  deriving DecidableEq, Repr

/-- The machine. `cfg` and `adapter` are the model's own fields: the parameters the machine was built with (R6) and its
inputs (R71). -/
structure State where
  /-- R0 to R7 (R20). -/
  regs : Vector Word 8
  /-- The program counter (R24). -/
  pc : Word
  /-- COND: N = bit 2, Z = bit 1, P = bit 0 (R28, D23). -/
  cond : BitVec 3
  /-- The run state and the fault record (R33, R34). -/
  run : RunState
  /-- The stored words of memory (R50). -/
  mem : Memory
  /-- The parameters of R6. -/
  cfg : Config
  /-- The adapter's answers (R71). -/
  adapter : Adapter
  /-- The output events so far, oldest first (R72). -/
  out : List OutEvent
  deriving DecidableEq, Repr

/-- No step of this machine ends in a fault of the model: every fatal fault of the spec is a next state, FAULTED with its
record (R127, R250; assumption 11), so this type has no constructor. -/
inductive Fault where
  deriving DecidableEq, Repr

/-- The reasons for giving no meaning. -/
inductive Refusal where
  /-- Raised by an arm of `exec` whose instruction has no meaning yet; safe. No arm raises it. -/
  | notModelled (mnemonic : String)
  /-- Raised by `new` for an image whose words would run past 0xFFFF (R282, D17); safe: no machine exists. -/
  | imageRefused
  /-- Raised by `new` for a file without an origin word (R282, D17); safe: no machine exists. -/
  | noOriginWord
  deriving DecidableEq, Repr

/-- What a meaning and a step answer. -/
abbrev Result := Host.Outcome State Fault Refusal

/-- The outcome of an operation that reads through the KBSR hook: a value, or a fault reason, each with the state that
the operation leaves. -/
inductive Access where
  | ok (v : Word) (s : State)
  | fail (r : FaultReason) (s : State)
  deriving DecidableEq, Repr

/-- R281 for an image of no words: the machine right after reset. Given by the spec: RUNNING, no record, no output,
PC = origin. DESIGN CHOICE: the origin 0x3000 (assumption 9), registers 0 (assumption 6), COND 000 (assumption 7),
memory unlisted (assumption 8), the parameters at their reference values (assumption 5), no scripted answers
(assumption 10). -/
def State.reset : State where
  regs := Vector.replicate 8 0x0000#16
  pc := 0x3000#16
  cond := 0b000#3
  run := .running
  mem := []
  cfg := Config.reference
  adapter := { keyAnswers := [], charAnswers := [], calls := 0 }
  out := []

end Sys2Proof.Machine
end

