-- ==== Sys2Proof/Machine/Ops.lean ====
section
/-! DEFINITION. The shared operations of the meanings: registers (spec/10_state.md), memory with the keyboard hook and the
adapter's calls (spec/20_memory.md), and the taking of a fault (spec/60_exceptions.md). There is no return from a fault
(R256): FAULTED is terminal, and RTI is itself a fault. -/

namespace Sys2Proof.Machine

/-! ## Registers -/

/-- R21: `x[r]`. -/
def State.reg (s : State) (r : RegIdx) : Word := s.regs[r.toNat]'r.isLt

/-- R21: `x[r] <- v`. -/
def State.setReg (s : State) (r : RegIdx) (v : Word) : State := { s with regs := s.regs.set r.toNat v r.isLt }

/-- `pc <- target`. -/
def State.setPc (s : State) (target : Word) : State := { s with pc := target }

/-- R23: the link register. -/
def linkReg : RegIdx := 7#3

/-! ## Plain memory -/

/-- R57: `PlainRead(a)`, the stored word `M[a]` with no hook. -/
def State.peek (s : State) (a : Word) : Word := Memory.read s.mem a.toNat

/-- R56: `MemWrite(a, 16, v)`: a plain store at every address. -/
def State.memWrite (s : State) (a v : Word) : State := { s with mem := Memory.write s.mem a.toNat v }

/-! ## The adapter -/

/-- R70: `KeyAvailable()`: the next scripted answer, or a free one. -/
def State.keyAvailable (s : State) : Bool × State :=
  (s.adapter.keyAnswers.headD (Config.freeKeyAvailable s.adapter.calls),
    { s with adapter :=
      { s.adapter with keyAnswers := s.adapter.keyAnswers.tail, calls := s.adapter.calls + 1 } })

/-- R70: `ReadChar(READ_TIMEOUT)`: the next scripted answer, or a free one; none is a timeout or the end of input. -/
def State.readChar (s : State) : Option Byte × State :=
  (s.adapter.charAnswers.headD (Config.freeReadChar Config.readTimeout s.adapter.calls),
    { s with adapter :=
      { s.adapter with charAnswers := s.adapter.charAnswers.tail, calls := s.adapter.calls + 1 } })

/-- R70, R72: `WriteChar(b)`. -/
def State.writeChar (s : State) (b : Byte) : State := { s with out := s.out ++ [.char b] }

/-- `WriteChar` of each byte in order. -/
def State.writeChars (s : State) (bs : List Byte) : State := { s with out := s.out ++ bs.map .char }

/-- R70, R72: `Flush()`. -/
def State.flush (s : State) : State := { s with out := s.out ++ [.flush] }

/-! ## The keyboard hook -/

/-- R54: the stores of a poll that finds the character `c`, KBSR first. -/
def State.pollFound (s : State) (c : Byte) : State :=
  match s.cfg.kbPollWrite with
  | .wholeWord => (s.memWrite s.cfg.kbsrAddr 0x8000#16).memWrite s.cfg.kbdrAddr (zext16 c)
  | .topBitOnly =>
    let s' := s.memWrite s.cfg.kbsrAddr (s.peek s.cfg.kbsrAddr ||| 0x8000#16)
    s'.memWrite s.cfg.kbdrAddr (high8 (s'.peek s.cfg.kbdrAddr) ++ c)

/-- R54: the store of a poll that finds no character. -/
def State.pollEmpty (s : State) : State :=
  match s.cfg.kbPollWrite with
  | .wholeWord => s.memWrite s.cfg.kbsrAddr 0x0000#16
  | .topBitOnly => s.memWrite s.cfg.kbsrAddr (s.peek s.cfg.kbsrAddr &&& 0x7FFF#16)

/-- R53, R54: the read of `KBSR_ADDR`: a poll, then the stored word the poll leaves. A key without a character breaks the
adapter's contract (D5), before anything is stored. -/
def State.readKbsr (s : State) : Access :=
  let (key, s₁) := s.keyAvailable
  if key then
    let (c, s₂) := s₁.readChar
    match c with
    | some c => .ok ((s₂.pollFound c).peek s.cfg.kbsrAddr) (s₂.pollFound c)
    | none => .fail .adapterContract s₂
  else .ok (s₁.pollEmpty.peek s.cfg.kbsrAddr) s₁.pollEmpty

/-- R53: `MemRead(a, 16)`. -/
def State.memRead (s : State) (a : Word) : Access :=
  if a = s.cfg.kbsrAddr then s.readKbsr else .ok (s.peek a) s

/-! ## Faults -/

/-- R127, R250, R255: taking a fault: the run state becomes FAULTED with the record of R34, and nothing else changes. -/
def State.takeFault (s : State) (reason : FaultReason) (word : Option Word) (addr : Word) : State :=
  { s with run := .faulted { reason, word, addr } }

/-- R34: a fault of the instruction `i` in its execute part, where PC is the fetch address plus 1. -/
def State.faultIn (s : State) (i : Instr) (reason : FaultReason) : State :=
  s.takeFault reason (some (encode i)) (s.pc - 1#16)

/-- A `MemRead` by the instruction `i`, which goes on with the word read or ends in the read's fault. -/
def State.readThen (s : State) (i : Instr) (a : Word) (k : Word → State → State) : State :=
  match s.memRead a with
  | .ok v s' => k v s'
  | .fail r s' => s'.faultIn i r

end Sys2Proof.Machine
end

