-- ==== Sys2Proof/Machine/Flags.lean ====
section
/-! DEFINITION. The condition flags (spec/10_state.md R28 to R32). -/

namespace Sys2Proof.Machine

/-- R29: the flags {N, Z, P} of a value. -/
def nzp (v : Word) : BitVec 3 :=
  if v = 0x0000#16 then 0b010#3
  else if v.getLsbD 15 then 0b100#3
  else 0b001#3

/-- R29: `setcc(v)`. -/
def State.setcc (s : State) (v : Word) : State := { s with cond := nzp v }

/-- R30, R145: `x[DR] <- v; setcc(x[DR])`, the flags taken from DR's new value. -/
def State.writeDR (s : State) (dr : RegIdx) (v : Word) : State :=
  let s' := s.setReg dr v
  s'.setcc (s'.reg dr)

/-- R190: BR's test, `(mask & COND) != 0`. -/
def State.branchTaken (s : State) (mask : BitVec 3) : Bool := mask &&& s.cond != 0#3

end Sys2Proof.Machine
end

