-- ==== Sys2Proof/Machine/Operands.lean ====
section
/-! DEFINITION. The operand forms: the immediates and offsets of spec/30_encoding.md R96 and the addressing modes of
spec/42_load_store.md R160. PC is the incremented PC (spec/40_fetch_execute.md R122); all sums are modulo 2^16. -/

namespace Sys2Proof.Machine

/-- R96: the second operand of ADD and AND in immediate form. -/
def immediate (imm : BitVec 5) : Word := sext imm

/-- R160: `pc + sext_9(PCoffset9)`; also the target of BR (R190). -/
def State.pcRelative (s : State) (off : BitVec 9) : Word := s.pc + sext off

/-- R192: `pc + sext_11(PCoffset11)`, the target of JSR. -/
def State.pcRelativeFar (s : State) (off : BitVec 11) : Word := s.pc + sext off

/-- R160: `x[BaseR] + sext_6(offset6)`. -/
def State.baseOffset (s : State) (base : RegIdx) (off : BitVec 6) : Word := s.reg base + sext off

end Sys2Proof.Machine
end

