-- ==== Sys2Proof/Machine/Control.lean ====
section
/-! DEFINITION. Control transfer (spec/43_control.md). No instruction here writes the flags (R197). -/

namespace Sys2Proof.Machine

/-- R190: the effect of a BR word. -/
def State.branch (s : State) (mask : BitVec 3) (off : BitVec 9) : State :=
  if s.branchTaken mask then s.setPc (s.pcRelative off) else s

/-- R190: BR. -/
def execBr (mask : BitVec 3) (off : BitVec 9) (s : State) : Result := .next (s.branch mask off)

/-- R103, R190: BRn. -/
def execBrn (off : BitVec 9) (s : State) : Result := .next (s.branch 0b100#3 off)

/-- R103, R190: BRz. -/
def execBrz (off : BitVec 9) (s : State) : Result := .next (s.branch 0b010#3 off)

/-- R103, R190: BRp. -/
def execBrp (off : BitVec 9) (s : State) : Result := .next (s.branch 0b001#3 off)

/-- R103, R190: BRnz. -/
def execBrnz (off : BitVec 9) (s : State) : Result := .next (s.branch 0b110#3 off)

/-- R103, R190: BRnp. -/
def execBrnp (off : BitVec 9) (s : State) : Result := .next (s.branch 0b101#3 off)

/-- R103, R190: BRzp. -/
def execBrzp (off : BitVec 9) (s : State) : Result := .next (s.branch 0b011#3 off)

/-- R103, R190: BRnzp. -/
def execBrnzp (off : BitVec 9) (s : State) : Result := .next (s.branch 0b111#3 off)

/-- R191: JMP. -/
def execJmp (base : RegIdx) (s : State) : Result := .next (s.setPc (s.reg base))

/-- R103, R191: RET, which is JMP R7. -/
def execRet (s : State) : Result := .next (s.setPc (s.reg linkReg))

/-- R192: JSR. -/
def execJsr (off : BitVec 11) (s : State) : Result :=
  .next ((s.setReg linkReg s.pc).setPc (s.pcRelativeFar off))

/-- R193: JSRR, in the order of `JSRR_ORDER`; the orders differ only for a base of R7. -/
def execJsrr (base : RegIdx) (s : State) : Result :=
  match s.cfg.jsrrOrder with
  | .linkFirst =>
    let s' := s.setReg linkReg s.pc
    .next (s'.setPc (s'.reg base))
  | .baseFirst =>
    let t := s.reg base
    .next ((s.setReg linkReg s.pc).setPc t)

end Sys2Proof.Machine
end

