-- ==== Sys2Proof/Machine/LoadStore.lean ====
section
/-! DEFINITION. Loads, stores and LEA (spec/42_load_store.md). -/

namespace Sys2Proof.Machine

/-- R161: LD. -/
def execLd (dr : RegIdx) (off : BitVec 9) (s : State) : Result :=
  .next (s.readThen (.ld dr off) (s.pcRelative off) fun v t => t.writeDR dr v)

/-- R162: LDI; the pointer is read first, both reads through the hook. -/
def execLdi (dr : RegIdx) (off : BitVec 9) (s : State) : Result :=
  .next (s.readThen (.ldi dr off) (s.pcRelative off) fun a t =>
    t.readThen (.ldi dr off) a fun v u => u.writeDR dr v)

/-- R163: LDR. -/
def execLdr (dr base : RegIdx) (off : BitVec 6) (s : State) : Result :=
  .next (s.readThen (.ldr dr base off) (s.baseOffset base off) fun v t => t.writeDR dr v)

/-- R164: LEA; it sets the flags and reads no memory. -/
def execLea (dr : RegIdx) (off : BitVec 9) (s : State) : Result := .next (s.writeDR dr (s.pcRelative off))

/-- R165: ST. -/
def execSt (sr : RegIdx) (off : BitVec 9) (s : State) : Result :=
  .next (s.memWrite (s.pcRelative off) (s.reg sr))

/-- R166: STI; the pointer read goes through the hook, the write does not. -/
def execSti (sr : RegIdx) (off : BitVec 9) (s : State) : Result :=
  .next (s.readThen (.sti sr off) (s.pcRelative off) fun a t => t.memWrite a (t.reg sr))

/-- R167: STR. -/
def execStr (sr base : RegIdx) (off : BitVec 6) (s : State) : Result :=
  .next (s.memWrite (s.baseOffset base off) (s.reg sr))

end Sys2Proof.Machine
end

