-- ==== Sys2Proof/Machine/Operate.lean ====
section
/-! DEFINITION. The operate instructions (spec/41_operate.md). The sources are read before DR is written (R145). -/

namespace Sys2Proof.Machine

/-- R140: ADD, register form. -/
def execAddReg (dr sr1 sr2 : RegIdx) (s : State) : Result := .next (s.writeDR dr (s.reg sr1 + s.reg sr2))

/-- R141: ADD, immediate form. -/
def execAddImm (dr sr1 : RegIdx) (imm : BitVec 5) (s : State) : Result :=
  .next (s.writeDR dr (s.reg sr1 + immediate imm))

/-- R142: AND, register form. -/
def execAndReg (dr sr1 sr2 : RegIdx) (s : State) : Result := .next (s.writeDR dr (s.reg sr1 &&& s.reg sr2))

/-- R143: AND, immediate form. -/
def execAndImm (dr sr1 : RegIdx) (imm : BitVec 5) (s : State) : Result :=
  .next (s.writeDR dr (s.reg sr1 &&& immediate imm))

/-- R144: NOT. -/
def execNot (dr sr : RegIdx) (s : State) : Result := .next (s.writeDR dr (s.reg sr ^^^ 0xFFFF#16))

end Sys2Proof.Machine
end

