-- ==== Sys2Proof/Machine/Reserved.lean ====
section
/-! DEFINITION. The reserved opcodes (spec/45_reserved.md): both decode, and fault when executed (R99, C3). -/

namespace Sys2Proof.Machine

/-- R240: RTI raises RESERVED_RTI. -/
def execRti (ign : BitVec 12) (s : State) : Result := .next (s.faultIn (.rti ign) .reservedRti)

/-- R241: RES raises RESERVED_RES. -/
def execRes (ign : BitVec 12) (s : State) : Result := .next (s.faultIn (.res ign) .reservedRes)

end Sys2Proof.Machine
end

