-- ==== Sys2Proof/Machine/Trap.lean ====
section
/-! DEFINITION. TRAP and its services (spec/44_trap.md). A service runs inside the step; no service writes the flags, R7
or PC (R210), and only HALT flushes (R221). -/

namespace Sys2Proof.Machine

/-- R210, §9: the six services and the unknown vectors. -/
inductive TrapService where
  | getc | out | puts | inp | putsp | halt | unknown
  deriving DecidableEq, Repr

/-- R210: the service of a vector. -/
def trapService (vect : BitVec 8) : TrapService :=
  if vect = 0x20#8 then .getc
  else if vect = 0x21#8 then .out
  else if vect = 0x22#8 then .puts
  else if vect = 0x23#8 then .inp
  else if vect = 0x24#8 then .putsp
  else if vect = 0x25#8 then .halt
  else .unknown

/-- R211: GETC. -/
def State.trapGetc (s : State) : State :=
  let (c, s₁) := s.readChar
  s₁.setReg 0#3 <| match c with
    | some c => zext16 c
    | none => s.cfg.noCharValue

/-- R212: OUT. -/
def State.trapOut (s : State) : State := s.writeChar (low8 (s.reg 0#3))

/-- R214: IN; no echo when no character arrives (D9). -/
def State.trapIn (s : State) : State :=
  let (c, s₁) := (s.writeChars s.cfg.inPrompt).readChar
  match c with
  | some c => (s₁.writeChar c).setReg 0#3 (zext16 c)
  | none => s₁.setReg 0#3 s.cfg.noCharValue

/-- R219: `StrRead(a)`. -/
def State.strRead (s : State) (a : Word) : Access :=
  match s.cfg.trapStringRead with
  | .plain => .ok (s.peek a) s
  | .hooked => s.memRead a

/-- R213, R215, R219: the scan of a string by the instruction `i`, from an address with `above` addresses above it: a zero
word ends it, any other is written by `emit`, and the word at 0xFFFF (no address above it) ends in STRING_WRAP. -/
def scan (i : Instr) (emit : Word → State → State) : (above : Nat) → Word → State → State
  | above, a, s =>
    match s.strRead a with
    | .fail r s₁ => s₁.faultIn i r
    | .ok v s₁ =>
      if v = 0x0000#16 then s₁
      else
        match above with
        | 0 => (emit v s₁).faultIn i .stringWrap
        | above + 1 => scan i emit above (a + 1#16) (emit v s₁)

/-- The scan from an address on. -/
def scanFrom (i : Instr) (emit : Word → State → State) (a : Word) (s : State) : State :=
  scan i emit (0xFFFF - a.toNat) a s

/-- R213: what PUTS writes of a word. -/
def emitLow (v : Word) (s : State) : State := s.writeChar (low8 v)

/-- R215: what PUTSP writes of a word: the low byte, then the high byte unless it is zero. -/
def emitPacked (v : Word) (s : State) : State :=
  let s' := s.writeChar (low8 v)
  if high8 v = 0x00#8 then s' else s'.writeChar (high8 v)

/-- R213: PUTS. -/
def State.trapPuts (s : State) (i : Instr) : State := scanFrom i emitLow (s.reg 0#3) s

/-- R215: PUTSP. -/
def State.trapPutsp (s : State) (i : Instr) : State := scanFrom i emitPacked (s.reg 0#3) s

/-- R216: HALT. -/
def State.trapHalt (s : State) : State := { s.flush with run := .halted }

/-- R217: an unknown vector, before any effect. -/
def State.trapUnknown (s : State) (i : Instr) : State := s.faultIn i .unknownTrap

/-- R210, R217: TRAP, for every vector. -/
def execTrap (ign : BitVec 4) (vect : BitVec 8) (s : State) : Result :=
  match trapService vect with
  | .getc => .next s.trapGetc
  | .out => .next s.trapOut
  | .puts => .next (s.trapPuts (.trap ign vect))
  | .inp => .next s.trapIn
  | .putsp => .next (s.trapPutsp (.trap ign vect))
  | .halt => .next s.trapHalt
  | .unknown => .next (s.trapUnknown (.trap ign vect))

/-- R103, R211: GETC. -/
def execGetc (s : State) : Result := .next s.trapGetc

/-- R103, R212: OUT. -/
def execOut (s : State) : Result := .next s.trapOut

/-- R103, R213: PUTS. -/
def execPuts (ign : BitVec 4) (s : State) : Result := .next (s.trapPuts (.puts ign))

/-- R103, R214: IN. -/
def execIn (s : State) : Result := .next s.trapIn

/-- R103, R215: PUTSP. -/
def execPutsp (ign : BitVec 4) (s : State) : Result := .next (s.trapPutsp (.putsp ign))

/-- R103, R216: HALT. -/
def execHalt (s : State) : Result := .next s.trapHalt

end Sys2Proof.Machine
end

