-- ==== Sys2Proof/Machine/Dispatch.lean ====
section
/-! DEFINITION. The execute part of a step (spec/40_fetch_execute.md R124): one arm for each constructor of Instr. -/

namespace Sys2Proof.Machine

/-- R124: `execute(ins)`; PC is already incremented (R122). The ignored bits of a word reach a meaning only where it can
fault, for the record's word (R34, R98). -/
def exec (i : Instr) (s : State) : Host.Outcome State Fault Refusal :=
  match i with
  | .br mask off => Sys2Proof.Machine.execBr mask off s
  | .addReg dr sr1 _ sr2 => Sys2Proof.Machine.execAddReg dr sr1 sr2 s
  | .addImm dr sr1 imm => Sys2Proof.Machine.execAddImm dr sr1 imm s
  | .ld dr off => Sys2Proof.Machine.execLd dr off s
  | .st sr off => Sys2Proof.Machine.execSt sr off s
  | .jsr off => Sys2Proof.Machine.execJsr off s
  | .jsrr _ base _ => Sys2Proof.Machine.execJsrr base s
  | .andReg dr sr1 _ sr2 => Sys2Proof.Machine.execAndReg dr sr1 sr2 s
  | .andImm dr sr1 imm => Sys2Proof.Machine.execAndImm dr sr1 imm s
  | .ldr dr base off => Sys2Proof.Machine.execLdr dr base off s
  | .str sr base off => Sys2Proof.Machine.execStr sr base off s
  | .rti ign => Sys2Proof.Machine.execRti ign s
  | .notReg dr sr _ => Sys2Proof.Machine.execNot dr sr s
  | .ldi dr off => Sys2Proof.Machine.execLdi dr off s
  | .sti sr off => Sys2Proof.Machine.execSti sr off s
  | .jmp _ base _ => Sys2Proof.Machine.execJmp base s
  | .res ign => Sys2Proof.Machine.execRes ign s
  | .lea dr off => Sys2Proof.Machine.execLea dr off s
  | .trap ign vect => Sys2Proof.Machine.execTrap ign vect s
  | .ret _ _ => Sys2Proof.Machine.execRet s
  | .getc _ => Sys2Proof.Machine.execGetc s
  | .out _ => Sys2Proof.Machine.execOut s
  | .puts ign => Sys2Proof.Machine.execPuts ign s
  | .inp _ => Sys2Proof.Machine.execIn s
  | .putsp ign => Sys2Proof.Machine.execPutsp ign s
  | .halt _ => Sys2Proof.Machine.execHalt s
  | .brn off => Sys2Proof.Machine.execBrn off s
  | .brz off => Sys2Proof.Machine.execBrz off s
  | .brp off => Sys2Proof.Machine.execBrp off s
  | .brnz off => Sys2Proof.Machine.execBrnz off s
  | .brnp off => Sys2Proof.Machine.execBrnp off s
  | .brzp off => Sys2Proof.Machine.execBrzp off s
  | .brnzp off => Sys2Proof.Machine.execBrnzp off s

end Sys2Proof.Machine
end

