-- ==== Sys2Proof/Machine/Fetch.lean ====
section
/-! DEFINITION. The fetch of a step (spec/40_fetch_execute.md R121, R122, R127). -/

namespace Sys2Proof.Machine

/-- R121, R122: the word at PC, read through the hook, and PC incremented. A fault of the read leaves PC as it was. -/
def State.fetch (s : State) : Access :=
  match s.memRead s.pc with
  | .ok w t => .ok w (t.setPc (s.pc + 1#16))
  | .fail r t => .fail r t

/-- R34, R127: a fault of the fetch read: no word, and the fetch address is PC. -/
def State.faultInFetch (s : State) (reason : FaultReason) : State := s.takeFault reason none s.pc

/-- The state with a word stored where the next step fetches, and able to step. -/
def State.placeWord (s : State) (w : Word) : State := { s.memWrite s.pc w with run := .running }

end Sys2Proof.Machine
end

