-- ==== Sys2Proof/Machine/Surface.lean ====
section
/-! DEFINITION. The host surface (spec/70_reset_and_hazards.md R280 to R285): `new`, the result of a `step`, `is_halted`,
and the numeric fault codes the spec gives its reasons. -/

namespace Sys2Proof.Machine

/-- R251, D24: the code of a fault reason. -/
def FaultReason.code : FaultReason → Nat
  | .reservedRti => 1
  | .reservedRes => 2
  | .unknownTrap => 3
  | .stringWrap => 4
  | .adapterContract => 5

/-- R125: what `step()` returns to the host. -/
inductive StepResult where
  | continue
  | halted
  | fault (reason : FaultReason)
  deriving DecidableEq, Repr

/-- R125, R126, D19: the result of a step, from the run states before and after it (assumption 17). -/
def stepResult (before after : RunState) : StepResult :=
  match before with
  | .halted => .halted
  | .faulted _ => .halted
  | .running =>
    match after with
    | .running => .continue
    | .halted => .halted
    | .faulted record => .fault record.reason

/-- R285: `is_halted()`. -/
def State.isHalted (s : State) : Bool :=
  match s.run with
  | .running => false
  | .halted => true
  | .faulted _ => true

/-- R282: the loader's product. -/
structure Image where
  origin : Word
  words : List Word
  deriving DecidableEq, Repr

/-- What the source leaves open of a machine that `new` builds (R6): the parameters, the initial registers, flags and
memory, and the adapter it is given. -/
structure NewParams where
  cfg : Config
  initGpr : Vector Word 8
  initCond : BitVec 3
  initMem : Memory
  adapter : Adapter
  deriving DecidableEq, Repr

/-- R281, R282: `new(image)`, the only reset. -/
def new (p : NewParams) (image : Image) : Result :=
  if memorySize < image.origin.toNat + image.words.length then .refused .imageRefused
  else
    .next
      { regs := p.initGpr
        pc := image.origin
        cond := p.initCond
        run := .running
        mem := Memory.writeWords p.initMem image.origin.toNat image.words
        cfg := p.cfg
        adapter := p.adapter
        out := [] }

/-- R282: `new` of the words of a file, of which the first is the origin. -/
def newOfFileWords (p : NewParams) : List Word → Result
  | [] => .refused .noOriginWord
  | origin :: words => new p { origin, words }

/-- The parameters of `State.reset` (assumptions 5 to 8, 10). -/
def NewParams.reference : NewParams where
  cfg := Config.reference
  initGpr := Vector.replicate 8 0x0000#16
  initCond := 0b000#3
  initMem := []
  adapter := { keyAnswers := [], charAnswers := [], calls := 0 }

end Sys2Proof.Machine
end

