-- ==== Sys2Proof/Machine/Step.lean ====
section
/-! DEFINITION. One step of the machine (spec/40_fetch_execute.md R120), and the host's way to place a word where the next
step fetches it. -/

namespace Sys2Proof.Machine

/-- R120: fetch, increment, decode, execute; in HALTED and FAULTED a step changes nothing (R126). -/
def step (s : State) : Host.Outcome State Fault Refusal :=
  match s.run with
  | .running =>
    match s.fetch with
    | .ok w t => exec (decode w) t
    | .fail r t => .next (t.faultInFetch r)
  | .halted => .next s
  | .faulted _ => .next s

/-- The state whose next step fetches and runs the word: it is stored at PC, and the machine is RUNNING (R33). At
`KBSR_ADDR` no stored word is fetched, because the fetch polls first (R121; assumption 9). -/
def State.withFetchWord (s : State) (nbits w : Nat) : State := s.placeWord (tableWord nbits w)

end Sys2Proof.Machine
end

