-- ==== Sys2Proof/Safety.lean ====
section
/-! DEFINITION. The terms in which claims about the machine are made: what a safe run is, the invariant of the state, and
the relations between the states before and after an operation ("what it writes, and that it writes nothing else").
The relations speak through the model's reads of one register (`reg`) and of one word of memory (`peek`, the machine's
addressable unit, spec/20_memory.md R51). -/

namespace Sys2Proof.Machine

/-! ## Runs -/

/-- A machine that is not in FAULTED (spec/10_state.md R33). -/
def State.Clean (s : State) : Prop := ∀ record, s.run ≠ .faulted record

/-- A run of `k` steps is safe when it answers a state and that state is not FAULTED; FAULTED is terminal (R126), so no
state on the way was FAULTED either. -/
def SafeFor (k : Nat) (s : State) : Prop := ∃ t, Sys2Proof.core.run k s = .next t ∧ t.Clean

/-- R71, R288: the adapter's coming answers keep its duty at a poll: after a true `KeyAvailable` the `ReadChar` gives a
character. -/
def State.PollKept (s : State) : Prop :=
  s.keyAvailable.1 = true → s.keyAvailable.2.readChar.1.isSome = true

/-! ## The invariant -/

/-- Memory is in its canonical form, and the parameters are in their domain (R6). -/
def State.Inv (s : State) : Prop := Memory.wf s.mem ∧ s.cfg.wf

/-- R32: exactly one of N, Z and P is set. -/
def OneHot (cond : BitVec 3) : Prop := cond = 0b100#3 ∨ cond = 0b010#3 ∨ cond = 0b001#3

/-- R29: the flags of a value. -/
def FlagsOf (v : Word) (cond : BitVec 3) : Prop :=
  (v = 0x0000#16 → cond = 0b010#3) ∧
  (v.getLsbD 15 = true → cond = 0b100#3) ∧
  (v ≠ 0x0000#16 → v.getLsbD 15 = false → cond = 0b001#3)

/-! ## Before and after -/

/-- No general register changes. -/
def SameRegs (s t : State) : Prop := ∀ r, t.reg r = s.reg r

/-- No general register but `d` changes. -/
def SameRegsExcept (d : RegIdx) (s t : State) : Prop := ∀ r, r ≠ d → t.reg r = s.reg r

/-- No word of memory changes. -/
def SameMem (s t : State) : Prop := ∀ a, t.peek a = s.peek a

/-- The adapter is not called, nothing is output, and the run state and the parameters stay. -/
def SameOutside (s t : State) : Prop :=
  t.adapter = s.adapter ∧ t.out = s.out ∧ t.run = s.run ∧ t.cfg = s.cfg

/-- `x[dr] <- v; setcc(x[dr])` and nothing else. -/
def DefinesRegister (dr : RegIdx) (v : Word) (s t : State) : Prop :=
  t.reg dr = v ∧ FlagsOf v t.cond ∧ t.pc = s.pc ∧ SameRegsExcept dr s t ∧ SameMem s t ∧ SameOutside s t

/-- `M[a] <- v` and nothing else. -/
def StoresWord (a v : Word) (s t : State) : Prop :=
  t.peek a = v ∧ (∀ b, b ≠ a → t.peek b = s.peek b) ∧
    SameRegs s t ∧ t.cond = s.cond ∧ t.pc = s.pc ∧ SameOutside s t

/-- `pc <- target` and nothing else. -/
def JumpsTo (target : Word) (s t : State) : Prop :=
  t.pc = target ∧ SameRegs s t ∧ t.cond = s.cond ∧ SameMem s t ∧ SameOutside s t

/-- `x[7] <- link; pc <- target` and nothing else. -/
def CallsTo (link target : Word) (s t : State) : Prop :=
  t.reg 7#3 = link ∧ t.pc = target ∧ SameRegsExcept 7#3 s t ∧ t.cond = s.cond ∧ SameMem s t ∧ SameOutside s t

/-- `x[0] <- v` and nothing else of registers, flags, PC, memory, run state and parameters; the adapter and the output
are as in `io`. -/
def DefinesR0 (v : Word) (io s t : State) : Prop :=
  t.reg 0#3 = v ∧ SameRegsExcept 0#3 s t ∧ t.cond = s.cond ∧ t.pc = s.pc ∧ SameMem s t ∧
    t.run = s.run ∧ t.cfg = s.cfg ∧ t.adapter = io.adapter ∧ t.out = io.out

/-- The events are output, in order, and nothing else happens. -/
def Outputs (events : List OutEvent) (s t : State) : Prop :=
  t.out = s.out ++ events ∧ SameRegs s t ∧ t.cond = s.cond ∧ t.pc = s.pc ∧ SameMem s t ∧
    t.adapter = s.adapter ∧ t.run = s.run ∧ t.cfg = s.cfg

/-- The run state becomes FAULTED with the record, and nothing else happens (R255). -/
def FaultsWith (record : FaultRecord) (s t : State) : Prop :=
  t.run = .faulted record ∧ SameRegs s t ∧ t.cond = s.cond ∧ t.pc = s.pc ∧ SameMem s t ∧
    t.adapter = s.adapter ∧ t.out = s.out ∧ t.cfg = s.cfg

/-- The state without the word of a fault record: what two words that differ in ignored bits have in common (R98). -/
def State.forgetFaultWord (s : State) : State :=
  match s.run with
  | .running => s
  | .halted => s
  | .faulted record => { s with run := .faulted { record with word := none } }

/-! ## Who writes what -/

/-- R30: the destination register of the seven flag-setting opcodes. -/
def flagDestination : Instr → Option RegIdx
  | .addReg dr _ _ _ => some dr
  | .addImm dr _ _ => some dr
  | .andReg dr _ _ _ => some dr
  | .andImm dr _ _ => some dr
  | .notReg dr _ _ => some dr
  | .ld dr _ => some dr
  | .ldi dr _ => some dr
  | .ldr dr _ _ => some dr
  | .lea dr _ => some dr
  | .br _ _ => none
  | .st _ _ => none
  | .jsr _ => none
  | .jsrr _ _ _ => none
  | .str _ _ _ => none
  | .rti _ => none
  | .sti _ _ => none
  | .jmp _ _ _ => none
  | .res _ => none
  | .trap _ _ => none
  | .ret _ _ => none
  | .getc _ => none
  | .out _ => none
  | .puts _ => none
  | .inp _ => none
  | .putsp _ => none
  | .halt _ => none
  | .brn _ => none
  | .brz _ => none
  | .brp _ => none
  | .brnz _ => none
  | .brnp _ => none
  | .brzp _ => none
  | .brnzp _ => none

/-- R22: the register an instruction may write: DR of the seven, R7 of JSR and JSRR, R0 of GETC and IN. -/
def registerWritten : Instr → Option RegIdx
  | .jsr _ => some 7#3
  | .jsrr _ _ _ => some 7#3
  | .getc _ => some 0#3
  | .inp _ => some 0#3
  | .trap _ vect => if vect = 0x20#8 ∨ vect = 0x23#8 then some 0#3 else none
  | i => flagDestination i

end Sys2Proof.Machine
end

