-- ==== Sys2Proof/Certificates/Slice0/Obligations.lean ====
section
/-! DEFINITION. The statements about the machine that the provers settle. The relations they use (DefinesRegister, StoresWord,
FaultsWith and the rest) are in Safety.lean. A statement about an instruction says in its first clause which words are that
instruction; those clauses rest on the spec's decisions D1, D2 and D13 (notes/assumptions 1, 2, 3). -/

open Sys2Proof Sys2Proof.Machine

/-! ## Encoding -/

/-- R83, R104: decoding the word of a well-formed instruction gives the instruction back, with every operand and every
ignored bit. -/
def Obligations.DecodeOfEncodeIsIdentity : Prop := ∀ i : Instr, i.wf = true → decode (encode i) = i

/-- R83, R123: every word is the word of exactly one well-formed instruction, the one it decodes to. -/
def Obligations.EveryWordIsOneInstruction : Prop :=
  ∀ w : Word, (decode w).wf = true ∧ encode (decode w) = w ∧ ∀ i : Instr, i.wf = true → encode i = w → i = decode w

/-- R81, R82: the opcode of the instruction a word decodes to is the one of the word's bits 15:12. The values are the
spec's decision D2 (notes/assumptions/2.md). -/
def Obligations.OpcodeIsBits15To12 : Prop :=
  (∀ w : Word, (decode w).opcode.value = field w 12 4) ∧
  Opcode.br.value = 0b0000#4 ∧ Opcode.add.value = 0b0001#4 ∧ Opcode.ld.value = 0b0010#4 ∧
  Opcode.st.value = 0b0011#4 ∧ Opcode.jsr.value = 0b0100#4 ∧ Opcode.and.value = 0b0101#4 ∧
  Opcode.ldr.value = 0b0110#4 ∧ Opcode.str.value = 0b0111#4 ∧ Opcode.rti.value = 0b1000#4 ∧
  Opcode.not.value = 0b1001#4 ∧ Opcode.ldi.value = 0b1010#4 ∧ Opcode.sti.value = 0b1011#4 ∧
  Opcode.jmp.value = 0b1100#4 ∧ Opcode.res.value = 0b1101#4 ∧ Opcode.lea.value = 0b1110#4 ∧
  Opcode.trap.value = 0b1111#4

/-- Words that spec/41_operate.md to 45_reserved.md write out for an instruction decode to it. -/
def Obligations.WordsOfTheSpecDecode : Prop :=
  decode 0x107D#16 = .addImm 0#3 1#3 0b11101#5 ∧
  decode 0x14C4#16 = .addReg 2#3 3#3 0#2 4#3 ∧
  decode 0x9AFF#16 = .notReg 5#3 3#3 0b111111#6 ∧
  decode 0xA601#16 = .ldi 3#3 1#9 ∧
  decode 0x7B01#16 = .str 5#3 4#3 1#6 ∧
  decode 0x03FD#16 = .brp 0b111111101#9 ∧
  decode 0xC1C0#16 = .ret 0#3 0#6 ∧
  decode 0x4801#16 = .jsr 1#11 ∧
  decode 0x40C0#16 = .jsrr 0#2 3#3 0#6 ∧
  decode 0xF025#16 = .halt 0#4 ∧
  decode 0xDFFF#16 = .res 0xFFF#12

/-- R98 (the spec's decision D13, notes/assumptions/3.md): instructions that differ only in ignored bits execute alike.
Where the instruction can fault, the states differ at most in the word that the fault record keeps (R34). -/
def Obligations.IgnoredBitsChangeNothing : Prop :=
  ∀ s : State,
  (∀ dr sr1 x y sr2, exec (.addReg dr sr1 x sr2) s = exec (.addReg dr sr1 y sr2) s) ∧
  (∀ dr sr1 x y sr2, exec (.andReg dr sr1 x sr2) s = exec (.andReg dr sr1 y sr2) s) ∧
  (∀ dr sr x y, exec (.notReg dr sr x) s = exec (.notReg dr sr y) s) ∧
  (∀ x y base x' y', exec (.jsrr x base x') s = exec (.jsrr y base y') s) ∧
  (∀ x y base x' y', exec (.jmp x base x') s = exec (.jmp y base y') s) ∧
  (∀ x y x' y', exec (.ret x x') s = exec (.ret y y') s) ∧
  (∀ x y, exec (.getc x) s = exec (.getc y) s ∧ exec (.out x) s = exec (.out y) s ∧
    exec (.inp x) s = exec (.inp y) s ∧ exec (.halt x) s = exec (.halt y) s) ∧
  (∀ x y, ∃ t u, exec (.puts x) s = .next t ∧ exec (.puts y) s = .next u ∧ t.forgetFaultWord = u.forgetFaultWord) ∧
  (∀ x y, ∃ t u, exec (.putsp x) s = .next t ∧ exec (.putsp y) s = .next u ∧
    t.forgetFaultWord = u.forgetFaultWord) ∧
  (∀ x y v, ∃ t u, exec (.trap x v) s = .next t ∧ exec (.trap y v) s = .next u ∧
    t.forgetFaultWord = u.forgetFaultWord) ∧
  (∀ x y, ∃ t u, exec (.rti x) s = .next t ∧ exec (.rti y) s = .next u ∧ t.forgetFaultWord = u.forgetFaultWord) ∧
  (∀ x y, ∃ t u, exec (.res x) s = .next t ∧ exec (.res y) s = .next u ∧ t.forgetFaultWord = u.forgetFaultWord)

/-! ## Bits, flags, registers -/

/-- R9: sign extension is the formula of the spec, and keeps the two's-complement value of every field of 5, 6, 9 and 11
bits. -/
def Obligations.SignExtensionKeepsTheValue : Prop :=
  (∀ k (f : BitVec k), k ∈ [5, 6, 9, 11] → f.getLsbD (k - 1) = true →
    sext f = f.setWidth 16 ||| (0xFFFF#16 <<< k)) ∧
  (∀ k (f : BitVec k), k ∈ [5, 6, 9, 11] → f.getLsbD (k - 1) = false → sext f = f.setWidth 16) ∧
  (∀ k (f : BitVec k), k ∈ [5, 6, 9, 11] → (sext f).toInt = f.toInt)

/-- R29: `setcc` writes all three flags from a value, so that exactly one is set, and nothing else. -/
def Obligations.SetccSetsExactlyOneFlag : Prop :=
  ∀ (v : Word) (s : State),
    FlagsOf v (s.setcc v).cond ∧ OneHot (s.setcc v).cond ∧
    (s.setcc v).pc = s.pc ∧ SameRegs s (s.setcc v) ∧ SameMem s (s.setcc v) ∧ SameOutside s (s.setcc v)

/-- R21: a register holds what was last written to it; a write changes no other register and no flag. -/
def Obligations.RegisterReadsBack : Prop :=
  ∀ (r : RegIdx) (v : Word) (s : State),
    (s.setReg r v).reg r = v ∧ SameRegsExcept r s (s.setReg r v) ∧ (s.setReg r v).cond = s.cond ∧
    (s.setReg r v).pc = s.pc ∧ SameMem s (s.setReg r v) ∧ SameOutside s (s.setReg r v)

/-! ## Memory and the adapter -/

/-- R56: a write stores the word at every address, the keyboard words included, and calls nothing on the adapter; a later
read anywhere but at KBSR returns it, and a later read of KBSR polls. -/
def Obligations.WriteStoresTheWord : Prop :=
  ∀ (a v : Word) (s : State),
    StoresWord a v s (s.memWrite a v) ∧
    (a ≠ s.cfg.kbsrAddr → (s.memWrite a v).memRead a = .ok v (s.memWrite a v)) ∧
    (a = s.cfg.kbsrAddr → (s.memWrite a v).memRead a = (s.memWrite a v).readKbsr)

/-- R55: a read at KBDR returns the stored word and has no side effect. -/
def Obligations.KbdrReadIsPlain : Prop :=
  ∀ s : State, s.cfg.wf → s.memRead s.cfg.kbdrAddr = .ok (s.peek s.cfg.kbdrAddr) s

/-- R53, R54: a read of KBSR polls. With no key it clears the top bit; with a key it sets the top bit and copies the
character into KBDR's low byte; under WholeWord the rest of both words becomes 0, under TopBitOnly it stays. A key without
a character is the fault ADAPTER_CONTRACT, with nothing stored (the spec's decision D5, notes/assumptions/14.md). -/
def Obligations.KbsrReadPolls : Prop :=
  ∀ s : State,
  (s.keyAvailable.1 = false → ∃ v u, s.memRead s.cfg.kbsrAddr = .ok v u ∧ u.peek s.cfg.kbsrAddr = v ∧
    (s.cfg.kbPollWrite = .wholeWord → v = 0x0000#16) ∧
    (s.cfg.kbPollWrite = .topBitOnly → v = s.peek s.cfg.kbsrAddr &&& 0x7FFF#16) ∧
    (∀ a, a ≠ s.cfg.kbsrAddr → u.peek a = s.peek a) ∧
    SameRegs s u ∧ u.cond = s.cond ∧ u.pc = s.pc ∧ u.run = s.run ∧ u.cfg = s.cfg ∧ u.out = s.out ∧
    u.adapter = s.keyAvailable.2.adapter) ∧
  (∀ c, s.cfg.wf → s.keyAvailable.1 = true → s.keyAvailable.2.readChar.1 = some c →
    ∃ v u, s.memRead s.cfg.kbsrAddr = .ok v u ∧ u.peek s.cfg.kbsrAddr = v ∧
    (s.cfg.kbPollWrite = .wholeWord → v = 0x8000#16 ∧ u.peek s.cfg.kbdrAddr = 0x00#8 ++ c) ∧
    (s.cfg.kbPollWrite = .topBitOnly → v = s.peek s.cfg.kbsrAddr ||| 0x8000#16 ∧
      u.peek s.cfg.kbdrAddr = (s.peek s.cfg.kbdrAddr).extractLsb' 8 8 ++ c) ∧
    (∀ a, a ≠ s.cfg.kbsrAddr → a ≠ s.cfg.kbdrAddr → u.peek a = s.peek a) ∧
    SameRegs s u ∧ u.cond = s.cond ∧ u.pc = s.pc ∧ u.run = s.run ∧ u.cfg = s.cfg ∧ u.out = s.out ∧
    u.adapter = s.keyAvailable.2.readChar.2.adapter) ∧
  (s.keyAvailable.1 = true → s.keyAvailable.2.readChar.1 = none →
    s.memRead s.cfg.kbsrAddr = .fail .adapterContract s.keyAvailable.2.readChar.2)

/-- R70, R71: the adapter's scripted answers are given in order, one a call; a call is counted and changes nothing else.
That the answers are held as scripts is the model's choice (notes/assumptions/10.md). -/
def Obligations.AdapterAnswersInOrder : Prop :=
  ∀ s : State,
  (∀ b bs, s.adapter.keyAnswers = b :: bs → s.keyAvailable.1 = b ∧
    s.keyAvailable.2.adapter.keyAnswers = bs ∧ s.keyAvailable.2.adapter.charAnswers = s.adapter.charAnswers) ∧
  (∀ c cs, s.adapter.charAnswers = c :: cs → s.readChar.1 = c ∧
    s.readChar.2.adapter.charAnswers = cs ∧ s.readChar.2.adapter.keyAnswers = s.adapter.keyAnswers) ∧
  s.keyAvailable.2.adapter.calls = s.adapter.calls + 1 ∧ s.readChar.2.adapter.calls = s.adapter.calls + 1 ∧
  s.keyAvailable.2 = { s with adapter := s.keyAvailable.2.adapter } ∧
  s.readChar.2 = { s with adapter := s.readChar.2.adapter }

/-- R58: no access fails for its address: a read fails only at KBSR, with ADAPTER_CONTRACT. -/
def Obligations.OnlyAKbsrReadCanFail : Prop :=
  ∀ (s u : State) (a : Word) (r : FaultReason), s.memRead a = .fail r u →
    a = s.cfg.kbsrAddr ∧ r = .adapterContract

/-- The model's own: two canonical memories that hold the same words are the same data (notes/assumptions/12.md). -/
def Obligations.SameWordsAreTheSameMemory : Prop :=
  ∀ m m' : Memory, Memory.wf m → Memory.wf m' → (∀ a, Memory.read m a = Memory.read m' a) → m = m'

/-! ## The step -/

/-- R120, R121, R122: a step in RUNNING reads the word at PC through the hook, increments PC, and executes the decoded
instruction; a fault of the fetch read ends it with PC unchanged. Away from KBSR the word is the stored one. The clause on the
encoding of a well-formed instruction rests on the spec's decisions D1 and D2 and on the model's choice of constructors
(notes/assumptions/1.md, 2.md, 4.md). The last clause (R127, R34, R128) rests on the spec's decisions D18, D24 and D28
(notes/assumptions/18.md), and its being a next state is the model's choice (notes/assumptions/11.md). -/
def Obligations.StepRunsTheDecodedInstruction : Prop :=
  ∀ s : State, s.run = .running →
  (s.pc ≠ s.cfg.kbsrAddr → step s = exec (decode (s.peek s.pc)) { s with pc := s.pc + 1#16 }) ∧
  (∀ i : Instr, i.wf = true → s.pc ≠ s.cfg.kbsrAddr → s.peek s.pc = encode i →
    step s = exec i { s with pc := s.pc + 1#16 }) ∧
  (∀ w u, s.memRead s.pc = .ok w u → step s = exec (decode w) { u with pc := s.pc + 1#16 }) ∧
  (∀ r u, s.memRead s.pc = .fail r u →
    step s = .next { u with run := .faulted { reason := r, word := none, addr := s.pc } })

/-- R126 (the results are the spec's decision D19, notes/assumptions/17.md): in HALTED and FAULTED a step changes nothing
and returns Halted, and `is_halted` is true; in RUNNING it is false. -/
def Obligations.TerminalStatesStay : Prop :=
  ∀ s : State,
  (s.run ≠ .running → step s = .next s ∧ stepResult s.run s.run = .halted ∧ s.isHalted = true) ∧
  (s.run = .running → s.isHalted = false)

/-- The model's own: no instruction and no step stops the model: both answer a next state, whatever the state. Decoding is
total (R83) and a fatal fault has a resulting state (R127, R250), which the model makes a next state
(notes/assumptions/11.md); a ReadChar that never returns is no run of the model (R288, notes/assumptions/13.md). -/
def Obligations.EveryStepAnswersANextState : Prop :=
  (∀ (i : Instr) (s : State), ∃ t, exec i s = .next t) ∧ ∀ s : State, ∃ t, step s = .next t

/-- The model's invariant (notes/assumptions/5.md, 12.md): every step keeps the canonical form of memory and the domain of
the parameters. -/
def Obligations.StepKeepsTheInvariant : Prop := ∀ s t : State, s.Inv → step s = .next t → t.Inv

/-- The invariant holds after reset. -/
def Obligations.ResetHasTheInvariant : Prop := State.reset.Inv

/-- R32: after a flag-setting instruction completes exactly one flag is set, and every later step keeps it so. -/
def Obligations.FlagsStayOneHot : Prop :=
  (∀ (i : Instr) (dr : RegIdx) (s t : State), flagDestination i = some dr → s.run = .running → exec i s = .next t →
    t.run = .running → OneHot t.cond) ∧
  (∀ s t : State, OneHot s.cond → step s = .next t → OneHot t.cond)

/-- R27: outside BR, JMP, JSR and JSRR an instruction leaves PC at the fetch increment; a step that faults has incremented
PC, unless the fault came from the fetch read, which is possible only at KBSR. -/
def Obligations.OnlyControlTransferWritesPc : Prop :=
  (∀ (i : Instr) (s t : State), exec i s = .next t → t.pc ≠ s.pc →
    i.opcode = .br ∨ i.opcode = .jmp ∨ i.opcode = .jsr) ∧
  (∀ (s t : State) (record : FaultRecord), s.run = .running → step s = .next t → t.run = .faulted record →
    (record.word ≠ none → t.pc = s.pc + 1#16) ∧ (record.word = none → t.pc = s.pc ∧ s.pc = s.cfg.kbsrAddr))

/-- R30, R197: only ADD, AND, NOT, LD, LDI, LDR and LEA write the flags, and they write the flags of DR's new value. That a
faulting one leaves the old flags (R128, R255) is the spec's decision D28 (notes/assumptions/18.md). -/
def Obligations.OnlySevenOpcodesWriteFlags : Prop :=
  ∀ (i : Instr) (s t : State), exec i s = .next t →
    (flagDestination i = none → t.cond = s.cond) ∧
    (∀ dr, flagDestination i = some dr → s.run = .running → t.run = .running → FlagsOf (t.reg dr) t.cond) ∧
    (∀ dr, flagDestination i = some dr → s.run = .running → t.run ≠ .running → t.cond = s.cond) ∧
    (flagDestination i ≠ none ↔ i.opcode ∈ [Opcode.add, .and, .not, .ld, .ldi, .ldr, .lea])

/-- R22: an instruction writes no general register but its DR (ADD, AND, NOT, LD, LDI, LDR, LEA), R7 (JSR, JSRR) or R0
(GETC, IN). -/
def Obligations.RegistersWrittenAreTheTables : Prop :=
  ∀ (i : Instr) (s t : State) (r : RegIdx), exec i s = .next t → t.reg r ≠ s.reg r → registerWritten i = some r

/-- R52: an instruction that is not a store changes no word of memory but the two keyboard words, and those only by a
poll. -/
def Obligations.OnlyStoresAndPollsWriteMemory : Prop :=
  ∀ (i : Instr) (s t : State) (a : Word), exec i s = .next t → t.peek a ≠ s.peek a →
    i.opcode = .st ∨ i.opcode = .sti ∨ i.opcode = .str ∨
    ((a = s.cfg.kbsrAddr ∨ a = s.cfg.kbdrAddr) ∧ t.adapter.calls ≠ s.adapter.calls)

/-- R67, R291: a store to the next instruction is seen by the very next fetch. -/
def Obligations.StoreIsFetchedByTheNextStep : Prop :=
  ∀ (s : State) (sr : RegIdx), s.run = .running → s.pc ≠ s.cfg.kbsrAddr → s.pc + 1#16 ≠ s.cfg.kbsrAddr →
    s.peek s.pc = encode (.st sr 0#9) →
    ∃ t, step s = .next t ∧ step t = exec (decode (s.reg sr)) { t with pc := s.pc + 2#16 }

/-- R33: HALTED is reached only by a TRAP word of vector 0x25. -/
def Obligations.OnlyTrapHaltReachesHalted : Prop :=
  ∀ s t : State, s.run = .running → step s = .next t → t.run = .halted →
    ∃ w u, s.memRead s.pc = .ok w u ∧ field w 12 4 = 0b1111#4 ∧ field w 0 8 = 0x25#8

/-- R34 (the record is the spec's decision D18, D24, notes/assumptions/18.md): the record of a fault holds the fetch address
and the instruction word of the faulting step, or no word when the fetch read faulted. -/
def Obligations.FaultRecordNamesTheStep : Prop :=
  ∀ (s t : State) (record : FaultRecord), s.run = .running → step s = .next t → t.run = .faulted record →
    record.addr = s.pc ∧
    ((record.word = none ∧ ∃ u, s.memRead s.pc = .fail record.reason u) ∨
      ∃ w u, s.memRead s.pc = .ok w u ∧ record.word = some w)

/-- R128, R255 (the spec's decision D28, notes/assumptions/18.md): a step that faults leaves every general register and the
flags, and every word of memory but the two keyboard words. -/
def Obligations.FaultsLeaveRegistersFlagsMemory : Prop :=
  ∀ (s t : State) (record : FaultRecord), s.run = .running → step s = .next t → t.run = .faulted record →
    SameRegs s t ∧ t.cond = s.cond ∧
    ∀ a, a ≠ s.cfg.kbsrAddr → a ≠ s.cfg.kbdrAddr → t.peek a = s.peek a

/-- R6: no step changes a parameter, so each is fixed for a machine. That they stand in State is the model's choice
(notes/assumptions/5.md). -/
def Obligations.ParametersNeverChange : Prop := ∀ s t : State, step s = .next t → t.cfg = s.cfg

/-- R72: output is only ever added, in the order it is issued. -/
def Obligations.OutputOnlyGrows : Prop := ∀ s t : State, step s = .next t → ∃ events, t.out = s.out ++ events

/-! ## Operate instructions -/

/-- R140: ADD, register form. -/
def Obligations.AddRegisterAddsModulo65536 : Prop :=
  ∀ (dr sr1 : RegIdx) (x : BitVec 2) (sr2 : RegIdx) (s : State),
    decode (0b0001#4 ++ dr ++ sr1 ++ 0b0#1 ++ x ++ sr2) = .addReg dr sr1 x sr2 ∧
    ∃ t, exec (.addReg dr sr1 x sr2) s = .next t ∧ DefinesRegister dr (s.reg sr1 + s.reg sr2) s t

/-- R141: ADD, immediate form. -/
def Obligations.AddImmediateAddsModulo65536 : Prop :=
  ∀ (dr sr1 : RegIdx) (imm : BitVec 5) (s : State),
    decode (0b0001#4 ++ dr ++ sr1 ++ 0b1#1 ++ imm) = .addImm dr sr1 imm ∧
    ∃ t, exec (.addImm dr sr1 imm) s = .next t ∧ DefinesRegister dr (s.reg sr1 + sext imm) s t

/-- R142: AND, register form. -/
def Obligations.AndRegisterAndsTheSources : Prop :=
  ∀ (dr sr1 : RegIdx) (x : BitVec 2) (sr2 : RegIdx) (s : State),
    decode (0b0101#4 ++ dr ++ sr1 ++ 0b0#1 ++ x ++ sr2) = .andReg dr sr1 x sr2 ∧
    ∃ t, exec (.andReg dr sr1 x sr2) s = .next t ∧ DefinesRegister dr (s.reg sr1 &&& s.reg sr2) s t

/-- R143: AND, immediate form. -/
def Obligations.AndImmediateAndsTheExtendedField : Prop :=
  ∀ (dr sr1 : RegIdx) (imm : BitVec 5) (s : State),
    decode (0b0101#4 ++ dr ++ sr1 ++ 0b1#1 ++ imm) = .andImm dr sr1 imm ∧
    ∃ t, exec (.andImm dr sr1 imm) s = .next t ∧ DefinesRegister dr (s.reg sr1 &&& sext imm) s t

/-- R144: NOT. -/
def Obligations.NotComplementsTheSource : Prop :=
  ∀ (dr sr : RegIdx) (x : BitVec 6) (s : State),
    decode (0b1001#4 ++ dr ++ sr ++ x) = .notReg dr sr x ∧
    ∃ t, exec (.notReg dr sr x) s = .next t ∧ DefinesRegister dr (~~~ s.reg sr) s t

/-! ## Loads, stores, LEA -/

/-- R161: LD. -/
def Obligations.LdLoadsPcRelative : Prop :=
  ∀ (dr : RegIdx) (off : BitVec 9) (s : State),
    decode (0b0010#4 ++ dr ++ off) = .ld dr off ∧
    (s.pc + sext off ≠ s.cfg.kbsrAddr →
      ∃ t, exec (.ld dr off) s = .next t ∧ DefinesRegister dr (s.peek (s.pc + sext off)) s t) ∧
    (∀ v u, s.memRead (s.pc + sext off) = .ok v u →
      ∃ t, exec (.ld dr off) s = .next t ∧ DefinesRegister dr v u t) ∧
    (∀ r u, s.memRead (s.pc + sext off) = .fail r u → r = .adapterContract ∧
      ∃ t, exec (.ld dr off) s = .next t ∧
        FaultsWith { reason := r, word := some (0b0010#4 ++ dr ++ off), addr := s.pc - 1#16 } u t)

/-- R162: LDI; the pointer is read first, and both reads go through the hook. -/
def Obligations.LdiLoadsThroughAPointer : Prop :=
  ∀ (dr : RegIdx) (off : BitVec 9) (s : State),
    decode (0b1010#4 ++ dr ++ off) = .ldi dr off ∧
    (s.pc + sext off ≠ s.cfg.kbsrAddr → s.peek (s.pc + sext off) ≠ s.cfg.kbsrAddr →
      ∃ t, exec (.ldi dr off) s = .next t ∧ DefinesRegister dr (s.peek (s.peek (s.pc + sext off))) s t) ∧
    (∀ a u v u', s.memRead (s.pc + sext off) = .ok a u → u.memRead a = .ok v u' →
      ∃ t, exec (.ldi dr off) s = .next t ∧ DefinesRegister dr v u' t) ∧
    (∀ r u, s.memRead (s.pc + sext off) = .fail r u → r = .adapterContract ∧
      ∃ t, exec (.ldi dr off) s = .next t ∧
        FaultsWith { reason := r, word := some (0b1010#4 ++ dr ++ off), addr := s.pc - 1#16 } u t) ∧
    (∀ a u r u', s.memRead (s.pc + sext off) = .ok a u → u.memRead a = .fail r u' → r = .adapterContract ∧
      ∃ t, exec (.ldi dr off) s = .next t ∧
        FaultsWith { reason := r, word := some (0b1010#4 ++ dr ++ off), addr := s.pc - 1#16 } u' t)

/-- R163: LDR; the base is read before DR is written. -/
def Obligations.LdrLoadsFromBaseAndOffset : Prop :=
  ∀ (dr base : RegIdx) (off : BitVec 6) (s : State),
    decode (0b0110#4 ++ dr ++ base ++ off) = .ldr dr base off ∧
    (s.reg base + sext off ≠ s.cfg.kbsrAddr →
      ∃ t, exec (.ldr dr base off) s = .next t ∧ DefinesRegister dr (s.peek (s.reg base + sext off)) s t) ∧
    (∀ v u, s.memRead (s.reg base + sext off) = .ok v u →
      ∃ t, exec (.ldr dr base off) s = .next t ∧ DefinesRegister dr v u t) ∧
    (∀ r u, s.memRead (s.reg base + sext off) = .fail r u → r = .adapterContract ∧
      ∃ t, exec (.ldr dr base off) s = .next t ∧
        FaultsWith { reason := r, word := some (0b0110#4 ++ dr ++ base ++ off), addr := s.pc - 1#16 } u t)

/-- R164: LEA writes the address and sets the flags of it, and accesses no memory. -/
def Obligations.LeaWritesTheAddressAndFlags : Prop :=
  ∀ (dr : RegIdx) (off : BitVec 9) (s : State),
    decode (0b1110#4 ++ dr ++ off) = .lea dr off ∧
    ∃ t, exec (.lea dr off) s = .next t ∧ DefinesRegister dr (s.pc + sext off) s t

/-- R165: ST, a plain store at every address. -/
def Obligations.StStoresPcRelative : Prop :=
  ∀ (sr : RegIdx) (off : BitVec 9) (s : State),
    decode (0b0011#4 ++ sr ++ off) = .st sr off ∧
    ∃ t, exec (.st sr off) s = .next t ∧ StoresWord (s.pc + sext off) (s.reg sr) s t

/-- R166: STI; the pointer read goes through the hook, the write does not. -/
def Obligations.StiStoresThroughAPointer : Prop :=
  ∀ (sr : RegIdx) (off : BitVec 9) (s : State),
    decode (0b1011#4 ++ sr ++ off) = .sti sr off ∧
    (s.pc + sext off ≠ s.cfg.kbsrAddr →
      ∃ t, exec (.sti sr off) s = .next t ∧ StoresWord (s.peek (s.pc + sext off)) (s.reg sr) s t) ∧
    (∀ a u, s.memRead (s.pc + sext off) = .ok a u →
      ∃ t, exec (.sti sr off) s = .next t ∧ StoresWord a (s.reg sr) u t) ∧
    (∀ r u, s.memRead (s.pc + sext off) = .fail r u → r = .adapterContract ∧
      ∃ t, exec (.sti sr off) s = .next t ∧
        FaultsWith { reason := r, word := some (0b1011#4 ++ sr ++ off), addr := s.pc - 1#16 } u t)

/-- R167: STR. -/
def Obligations.StrStoresAtBaseAndOffset : Prop :=
  ∀ (sr base : RegIdx) (off : BitVec 6) (s : State),
    decode (0b0111#4 ++ sr ++ base ++ off) = .str sr base off ∧
    ∃ t, exec (.str sr base off) s = .next t ∧ StoresWord (s.reg base + sext off) (s.reg sr) s t

/-! ## Control transfer -/

/-- R190, R100, R103: BR with each mask goes to `pc + sext_9(off)` exactly when the mask and COND share a 1, and otherwise
changes nothing; the words of the seven other masks decode to the rows that name them (notes/assumptions/1.md, 4.md). -/
def Obligations.BrBranchesOnTheMaskedFlags : Prop :=
  ∀ (off : BitVec 9) (s : State),
    (∀ i mask, (i, mask) ∈
        [(Instr.brn off, 0b100#3), (.brz off, 0b010#3), (.brp off, 0b001#3), (.brnz off, 0b110#3),
          (.brnp off, 0b101#3), (.brzp off, 0b011#3), (.brnzp off, 0b111#3), (.br 0b000#3 off, 0b000#3)] →
      decode (0b0000#4 ++ mask ++ off) = i ∧
      ∃ t, exec i s = .next t ∧ JumpsTo (if mask &&& s.cond ≠ 0#3 then s.pc + sext off else s.pc) s t) ∧
    (∀ mask, ∃ t, exec (.br mask off) s = .next t ∧
      JumpsTo (if mask &&& s.cond ≠ 0#3 then s.pc + sext off else s.pc) s t)

/-- R191, R103: JMP goes to the base register's value; a word whose base is R7 is RET (notes/assumptions/1.md, 4.md). -/
def Obligations.JmpAndRetGoToTheBase : Prop :=
  ∀ (x : BitVec 3) (base : RegIdx) (x' : BitVec 6) (s : State),
    (base ≠ 7#3 → decode (0b1100#4 ++ x ++ base ++ x') = .jmp x base x') ∧
    decode (0b1100#4 ++ x ++ 7#3 ++ x') = .ret x x' ∧
    (∃ t, exec (.jmp x base x') s = .next t ∧ JumpsTo (s.reg base) s t) ∧
    ∃ t, exec (.ret x x') s = .next t ∧ JumpsTo (s.reg 7#3) s t

/-- R192: JSR (the polarity of bit 11 is the spec's decision D1, notes/assumptions/1.md). -/
def Obligations.JsrLinksAndGoesPcRelative : Prop :=
  ∀ (off : BitVec 11) (s : State),
    decode (0b0100#4 ++ 0b1#1 ++ off) = .jsr off ∧
    ∃ t, exec (.jsr off) s = .next t ∧ CallsTo s.pc (s.pc + sext off) s t

/-- R193: JSRR links and goes to the base register's value; with a base of R7 that is the return address itself under
LinkFirst and the old R7 under BaseFirst (the encoding: notes/assumptions/1.md). -/
def Obligations.JsrrLinksAndGoesToTheBase : Prop :=
  ∀ (x : BitVec 2) (base : RegIdx) (x' : BitVec 6) (s : State),
    decode (0b0100#4 ++ 0b0#1 ++ x ++ base ++ x') = .jsrr x base x' ∧
    (base ≠ 7#3 → ∃ t, exec (.jsrr x base x') s = .next t ∧ CallsTo s.pc (s.reg base) s t) ∧
    (s.cfg.jsrrOrder = .linkFirst → ∃ t, exec (.jsrr x 7#3 x') s = .next t ∧ CallsTo s.pc s.pc s t) ∧
    (s.cfg.jsrrOrder = .baseFirst → ∃ t, exec (.jsrr x 7#3 x') s = .next t ∧ CallsTo s.pc (s.reg 7#3) s t)

/-! ## TRAP -/

/-- R210, R217 (bits 11:8: the spec's decision D13, notes/assumptions/3.md): TRAP runs the service of its vector; the words of
the six vectors decode to the rows that name them; every other vector is the fault UNKNOWN_TRAP, with nothing else. -/
def Obligations.TrapRunsTheServiceOfItsVector : Prop :=
  ∀ (x : BitVec 4) (s : State),
    (∀ v i, (v, i) ∈
        [(0x20#8, Instr.getc x), (0x21#8, .out x), (0x22#8, .puts x), (0x23#8, .inp x), (0x24#8, .putsp x),
          (0x25#8, .halt x)] →
      decode (0b1111#4 ++ x ++ v) = i ∧ exec (.trap x v) s = exec i s ∧ ∃ t, exec (.trap x v) s = .next t) ∧
    (∀ v : BitVec 8, v ∉ [0x20#8, 0x21#8, 0x22#8, 0x23#8, 0x24#8, 0x25#8] →
      decode (0b1111#4 ++ x ++ v) = .trap x v ∧
      ∃ t, exec (.trap x v) s = .next t ∧
        FaultsWith { reason := .unknownTrap, word := some (0b1111#4 ++ x ++ v), addr := s.pc - 1#16 } s t)

/-- R211 (the sentinel and the zero extension are the spec's decisions D6 and D7, notes/assumptions/15.md): GETC reads one
character into R0, without echo. -/
def Obligations.GetcReadsACharacterIntoR0 : Prop :=
  ∀ (x : BitVec 4) (s : State),
    (∀ c, s.readChar.1 = some c →
      ∃ t, exec (.getc x) s = .next t ∧ DefinesR0 (0x00#8 ++ c) s.readChar.2 s t) ∧
    (s.readChar.1 = none →
      ∃ t, exec (.getc x) s = .next t ∧ DefinesR0 s.cfg.noCharValue s.readChar.2 s t)

/-- R212: OUT writes R0's low byte and nothing else. -/
def Obligations.OutWritesR0LowByte : Prop :=
  ∀ (x : BitVec 4) (s : State),
    ∃ t, exec (.out x) s = .next t ∧ Outputs [.char ((s.reg 0#3).extractLsb' 0 8)] s t

/-- R213, R219 (STRING_WRAP is the spec's decision D11, notes/assumptions/15.md): PUTS is the loop of the spec from R0 on:
it ends at a zero word, writes the low byte of any other, ends in STRING_WRAP at 0xFFFF and in the read's fault where the
read faults. -/
def Obligations.PutsIsTheLoopOfTheSpec : Prop :=
  ∀ x : BitVec 4,
  (∀ s : State, exec (.puts x) s = .next (scanFrom (.puts x) emitLow (s.reg 0#3) s)) ∧
  (∀ (a : Word) (s : State),
    (s.cfg.trapStringRead = .plain → s.strRead a = .ok (s.peek a) s) ∧
    (s.cfg.trapStringRead = .hooked → s.strRead a = s.memRead a) ∧
    (∀ u, s.strRead a = .ok 0x0000#16 u → scanFrom (.puts x) emitLow a s = u) ∧
    (∀ v u, s.strRead a = .ok v u → v ≠ 0x0000#16 → a ≠ 0xFFFF#16 →
      scanFrom (.puts x) emitLow a s =
        scanFrom (.puts x) emitLow (a + 1#16) (u.writeChar (v.extractLsb' 0 8))) ∧
    (∀ v u, s.strRead a = .ok v u → v ≠ 0x0000#16 → a = 0xFFFF#16 →
      FaultsWith { reason := .stringWrap, word := some (encode (.puts x)), addr := s.pc - 1#16 }
        (u.writeChar (v.extractLsb' 0 8)) (scanFrom (.puts x) emitLow a s)) ∧
    (∀ r u, s.strRead a = .fail r u →
      FaultsWith { reason := r, word := some (encode (.puts x)), addr := s.pc - 1#16 } u
        (scanFrom (.puts x) emitLow a s)))

/-- R213, R219: a string of nonzero words from R0 on that a zero word ends is written, one low byte a word, and nothing else
happens; one that runs through 0xFFFF is written and then faults with STRING_WRAP (D11). The scan reads plainly, or does
not pass KBSR. -/
def Obligations.PutsWritesTheString : Prop :=
  ∀ (x : BitVec 4) (s : State) (vs : List Word), (∀ v ∈ vs, v ≠ 0x0000#16) →
    (∀ k (h : k < vs.length), s.peek (s.reg 0#3 + BitVec.ofNat 16 k) = vs[k]) →
    (s.cfg.trapStringRead = .plain ∨ ∀ k, k ≤ vs.length → (s.reg 0#3).toNat + k < 65536 →
      s.reg 0#3 + BitVec.ofNat 16 k ≠ s.cfg.kbsrAddr) →
    ((s.reg 0#3).toNat + vs.length < 65536 → s.peek (s.reg 0#3 + BitVec.ofNat 16 vs.length) = 0x0000#16 →
      ∃ t, exec (.puts x) s = .next t ∧ Outputs (vs.map fun v => .char (v.extractLsb' 0 8)) s t) ∧
    ((s.reg 0#3).toNat + vs.length = 65536 →
      ∃ u t, exec (.puts x) s = .next t ∧ Outputs (vs.map fun v => .char (v.extractLsb' 0 8)) s u ∧
        FaultsWith { reason := .stringWrap, word := some (0b1111#4 ++ x ++ 0x22#8), addr := s.pc - 1#16 } u t)

/-- R214 (the echo and the sentinel are the spec's decisions D6, D7 and D9, notes/assumptions/15.md): IN writes the prompt,
reads one character, echoes it and stores it in R0. -/
def Obligations.InPromptsReadsAndEchoes : Prop :=
  ∀ (x : BitVec 4) (s : State),
    (∀ c, s.readChar.1 = some c →
      ∃ t, exec (.inp x) s = .next t ∧ DefinesR0 (0x00#8 ++ c)
        { s.readChar.2 with out := s.out ++ s.cfg.inPrompt.map .char ++ [.char c] } s t) ∧
    (s.readChar.1 = none →
      ∃ t, exec (.inp x) s = .next t ∧ DefinesR0 s.cfg.noCharValue
        { s.readChar.2 with out := s.out ++ s.cfg.inPrompt.map .char } s t)

/-- R215, R219 (STRING_WRAP is the spec's decision D11): PUTSP is the loop of the spec from R0 on: as PUTS, but each word
gives its low byte and then its high byte, unless that is zero. -/
def Obligations.PutspIsTheLoopOfTheSpec : Prop :=
  ∀ x : BitVec 4,
  (∀ s : State, exec (.putsp x) s = .next (scanFrom (.putsp x) emitPacked (s.reg 0#3) s)) ∧
  (∀ (v : Word) (s : State),
    (v.extractLsb' 8 8 = 0x00#8 → emitPacked v s = s.writeChar (v.extractLsb' 0 8)) ∧
    (v.extractLsb' 8 8 ≠ 0x00#8 →
      emitPacked v s = (s.writeChar (v.extractLsb' 0 8)).writeChar (v.extractLsb' 8 8))) ∧
  (∀ (a : Word) (s : State),
    (∀ u, s.strRead a = .ok 0x0000#16 u → scanFrom (.putsp x) emitPacked a s = u) ∧
    (∀ v u, s.strRead a = .ok v u → v ≠ 0x0000#16 → a ≠ 0xFFFF#16 →
      scanFrom (.putsp x) emitPacked a s = scanFrom (.putsp x) emitPacked (a + 1#16) (emitPacked v u)) ∧
    (∀ v u, s.strRead a = .ok v u → v ≠ 0x0000#16 → a = 0xFFFF#16 →
      FaultsWith { reason := .stringWrap, word := some (encode (.putsp x)), addr := s.pc - 1#16 }
        (emitPacked v u) (scanFrom (.putsp x) emitPacked a s)) ∧
    (∀ r u, s.strRead a = .fail r u →
      FaultsWith { reason := r, word := some (encode (.putsp x)), addr := s.pc - 1#16 } u
        (scanFrom (.putsp x) emitPacked a s)))

/-- R215, R219: a packed string of nonzero words from R0 on that a zero word ends is written, the low byte of each word and
then its high byte unless zero, and nothing else happens; one that runs through 0xFFFF is written and then faults with
STRING_WRAP (D11). The scan reads plainly, or does not pass KBSR. -/
def Obligations.PutspWritesTheString : Prop :=
  ∀ (x : BitVec 4) (s : State) (vs : List Word), (∀ v ∈ vs, v ≠ 0x0000#16) →
    (∀ k (h : k < vs.length), s.peek (s.reg 0#3 + BitVec.ofNat 16 k) = vs[k]) →
    (s.cfg.trapStringRead = .plain ∨ ∀ k, k ≤ vs.length → (s.reg 0#3).toNat + k < 65536 →
      s.reg 0#3 + BitVec.ofNat 16 k ≠ s.cfg.kbsrAddr) →
    ((s.reg 0#3).toNat + vs.length < 65536 → s.peek (s.reg 0#3 + BitVec.ofNat 16 vs.length) = 0x0000#16 →
      ∃ t, exec (.putsp x) s = .next t ∧
        Outputs (vs.flatMap fun v =>
          .char (v.extractLsb' 0 8) :: if v.extractLsb' 8 8 = 0x00#8 then [] else [.char (v.extractLsb' 8 8)]) s t) ∧
    ((s.reg 0#3).toNat + vs.length = 65536 →
      ∃ u t, exec (.putsp x) s = .next t ∧
        Outputs (vs.flatMap fun v =>
          .char (v.extractLsb' 0 8) :: if v.extractLsb' 8 8 = 0x00#8 then [] else [.char (v.extractLsb' 8 8)]) s u ∧
        FaultsWith { reason := .stringWrap, word := some (0b1111#4 ++ x ++ 0x24#8), addr := s.pc - 1#16 } u t)

/-- R216: HALT flushes and enters HALTED, writing no byte, register or flag; the step's result is Halted and later steps
change nothing. -/
def Obligations.HaltFlushesAndHalts : Prop :=
  ∀ (x : BitVec 4) (s : State),
    ∃ t, exec (.halt x) s = .next t ∧ t.out = s.out ++ [.flush] ∧ t.run = .halted ∧ SameRegs s t ∧ t.cond = s.cond ∧
      t.pc = s.pc ∧ SameMem s t ∧ t.adapter = s.adapter ∧ t.cfg = s.cfg ∧
      (s.run = .running → stepResult s.run t.run = .halted) ∧ step t = .next t ∧ t.isHalted = true

/-! ## Reserved opcodes -/

/-- R240: every RTI word faults with RESERVED_RTI, and nothing else changes. -/
def Obligations.RtiFaults : Prop :=
  ∀ (x : BitVec 12) (s : State),
    decode (0b1000#4 ++ x) = .rti x ∧
    ∃ t, exec (.rti x) s = .next t ∧
      FaultsWith { reason := .reservedRti, word := some (0b1000#4 ++ x), addr := s.pc - 1#16 } s t

/-- R241: every RES word faults with RESERVED_RES, and nothing else changes. -/
def Obligations.ResFaults : Prop :=
  ∀ (x : BitVec 12) (s : State),
    decode (0b1101#4 ++ x) = .res x ∧
    ∃ t, exec (.res x) s = .next t ∧
      FaultsWith { reason := .reservedRes, word := some (0b1101#4 ++ x), addr := s.pc - 1#16 } s t

/-! ## Reset -/

/-- R281: `new` of an image that fits builds the machine with the image's words from its origin on and the parameters'
memory elsewhere, the parameters' registers and flags, PC at the origin, RUNNING, with no output; one that runs past
0xFFFF is refused. -/
def Obligations.NewBuildsTheMachine : Prop :=
  ∀ (p : NewParams) (origin : Word) (words : List Word),
    (origin.toNat + words.length ≤ 65536 →
      ∃ s, new p { origin, words } = .next s ∧
        (∀ k (h : k < words.length), s.peek (origin + BitVec.ofNat 16 k) = words[k]) ∧
        (∀ a : Word, (a.toNat < origin.toNat ∨ origin.toNat + words.length ≤ a.toNat) →
          s.peek a = Memory.read p.initMem a.toNat) ∧
        s.regs = p.initGpr ∧ s.cond = p.initCond ∧ s.pc = origin ∧ s.run = .running ∧
        s.cfg = p.cfg ∧ s.adapter = p.adapter ∧ s.out = [] ∧
        (p.cfg.wf → Memory.wf p.initMem → s.Inv)) ∧
    (65536 < origin.toNat + words.length → new p { origin, words } = .refused .imageRefused)

/-- The model's own (notes/assumptions/9.md): `State.reset` is the machine that `new` builds, with the reference parameters,
of the image of origin 0x3000 and no words. -/
def Obligations.ResetIsNewOfTheEmptyImage : Prop :=
  new NewParams.reference { origin := 0x3000#16, words := [] } = .next State.reset
end

