-- ==== Sys2Proof/Laws/Memory.lean ====
section
/-! SUPPORT. The laws of the cell list: a read after a write, and the canonical form, which every operation keeps. -/

namespace Sys2Proof.Machine

@[simp] theorem Memory.read_nil (a : Nat) : Memory.read [] a = unlistedWord := rfl

/-- No cell of an address: it reads as unlisted. -/
theorem Memory.read_unlisted {m : Memory} {a : Nat} (h : ∀ c ∈ m, c.1 ≠ a) : Memory.read m a = unlistedWord := by
  induction m with
  | nil => rfl
  | cons c m ih =>
    have hc : c.1 ≠ a := h c (by simp)
    simp only [Memory.read, hc, if_false]
    exact ih fun d hd => h d (by simp [hd])

@[simp] theorem Memory.read_erase_self (m : Memory) (a : Nat) : Memory.read (Memory.erase m a) a = unlistedWord :=
  Memory.read_unlisted fun c hc => by simpa [Memory.erase] using (List.mem_filter.1 hc).2

theorem Memory.read_erase_ne {m : Memory} {a b : Nat} (h : b ≠ a) :
    Memory.read (Memory.erase m a) b = Memory.read m b := by
  induction m with
  | nil => rfl
  | cons c m ih =>
    by_cases hc : c.1 = a
    · have hb : c.1 ≠ b := fun e => h (e.symm.trans hc)
      simpa [Memory.erase, hc, Memory.read, Ne.symm h] using ih
    · by_cases hb : c.1 = b
      · simp [Memory.erase, Memory.read, hb, h]
      · simpa [Memory.erase, hc, Memory.read, hb] using ih

theorem Memory.read_insert_ne {m : Memory} {a b : Nat} {v : Word} (h : b ≠ a) :
    Memory.read (Memory.insert m a v) b = Memory.read m b := by
  induction m with
  | nil => simp [Memory.insert, Memory.read, Ne.symm h]
  | cons c m ih =>
    simp only [Memory.insert]
    split
    · simp [Memory.read, Ne.symm h]
    · simp only [Memory.read, ih]

theorem Memory.read_insert_self {m : Memory} {a : Nat} {v : Word} (h : ∀ c ∈ m, c.1 ≠ a) :
    Memory.read (Memory.insert m a v) a = v := by
  induction m with
  | nil => simp [Memory.insert, Memory.read]
  | cons c m ih =>
    simp only [Memory.insert]
    split
    · simp [Memory.read]
    · have hc : c.1 ≠ a := h c (by simp)
      simp only [Memory.read, hc, if_false]
      exact ih fun d hd => h d (by simp [hd])

/-- A word reads back what was written to it. -/
@[simp] theorem Memory.read_write_self (m : Memory) (a : Nat) (v : Word) : Memory.read (Memory.write m a v) a = v := by
  unfold Memory.write
  split
  · simp_all
  · exact Memory.read_insert_self fun c hc => by simpa [Memory.erase] using (List.mem_filter.1 hc).2

/-- A write leaves every other word alone. -/
@[simp] theorem Memory.read_write_ne {m : Memory} {a b : Nat} {v : Word} (h : b ≠ a) :
    Memory.read (Memory.write m a v) b = Memory.read m b := by
  unfold Memory.write
  split
  · exact Memory.read_erase_ne h
  · rw [Memory.read_insert_ne h, Memory.read_erase_ne h]

/-! ## The canonical form -/

theorem Memory.wf_nil : Memory.wf [] := by simp [Memory.wf]

theorem Memory.wf_erase {m : Memory} {a : Nat} (h : Memory.wf m) : Memory.wf (Memory.erase m a) :=
  ⟨h.1.sublist List.filter_sublist, fun c hc => h.2 c (List.mem_of_mem_filter hc)⟩

theorem Memory.mem_insert {m : Memory} {a : Nat} {v : Word} {c : Nat × Word} :
    c ∈ Memory.insert m a v ↔ c = (a, v) ∨ c ∈ m := by
  induction m with
  | nil => simp [Memory.insert]
  | cons d m ih =>
    simp only [Memory.insert]
    split
    · simp
    · simp only [List.mem_cons, ih]
      tauto

theorem Memory.wf_insert {m : Memory} {a : Nat} {v : Word} (hm : Memory.wf m) (ha : a < memorySize)
    (hv : v ≠ unlistedWord) (hfree : ∀ c ∈ m, c.1 ≠ a) : Memory.wf (Memory.insert m a v) := by
  refine ⟨?_, fun c hc => ?_⟩
  · induction m with
    | nil => simp [Memory.insert]
    | cons d m ih =>
      have hd := List.pairwise_cons.1 hm.1
      have hrest : Memory.wf m := ⟨hd.2, fun c hc => hm.2 c (by simp [hc])⟩
      simp only [Memory.insert]
      split
      · rename_i had
        refine List.pairwise_cons.2 ⟨fun c hc => ?_, hm.1⟩
        obtain rfl | hc := List.mem_cons.1 hc
        · exact had
        · exact had.trans (hd.1 c hc)
      · rename_i had
        refine List.pairwise_cons.2 ⟨fun c hc => ?_, ih hrest fun c hc => hfree c (by simp [hc])⟩
        obtain rfl | hc := Memory.mem_insert.1 hc
        · exact lt_of_le_of_ne (not_lt.1 had) (hfree d (by simp))
        · exact hd.1 c hc
  · obtain rfl | hc := Memory.mem_insert.1 hc
    · exact ⟨ha, hv⟩
    · exact hm.2 c hc

/-- A write to an address of the space keeps the canonical form. -/
theorem Memory.wf_write {m : Memory} {a : Nat} {v : Word} (hm : Memory.wf m) (ha : a < memorySize) :
    Memory.wf (Memory.write m a v) := by
  unfold Memory.write
  split
  · exact Memory.wf_erase hm
  · rename_i hv
    exact Memory.wf_insert (Memory.wf_erase hm) ha hv fun c hc => by
      simpa [Memory.erase] using (List.mem_filter.1 hc).2

/-- The words of an image that ends inside the space keep the canonical form (R281, R282). -/
theorem Memory.wf_writeWords {m : Memory} {a : Nat} {ws : List Word} (hm : Memory.wf m)
    (ha : a + ws.length ≤ memorySize) : Memory.wf (Memory.writeWords m a ws) := by
  induction ws generalizing m a with
  | nil => exact hm
  | cons w ws ih =>
    simp only [List.length_cons] at ha
    exact ih (Memory.wf_write hm (by omega)) (by omega)

/-- Below an image, memory is as it was. -/
theorem Memory.read_writeWords_below {m : Memory} {a b : Nat} {ws : List Word} (h : b < a) :
    Memory.read (Memory.writeWords m a ws) b = Memory.read m b := by
  induction ws generalizing m a with
  | nil => rfl
  | cons w ws ih =>
    rw [Memory.writeWords, ih (by omega), Memory.read_write_ne (by omega)]

end Sys2Proof.Machine
end

