-- ==== Sys2Proof/Laws/State.lean ====
section
/-! SUPPORT. One lemma for each field of the state under each update, each true by rfl, so that no proof unfolds a record
update; and the two reads through which claims speak, `reg` and `peek`. -/

namespace Sys2Proof.Machine

variable (s : State)

/-! ## Fields under updates -/

@[simp] theorem setReg_regs (r : RegIdx) (v : Word) : (s.setReg r v).regs = s.regs.set r.toNat v r.isLt := rfl
@[simp] theorem setReg_pc (r : RegIdx) (v : Word) : (s.setReg r v).pc = s.pc := rfl
@[simp] theorem setReg_cond (r : RegIdx) (v : Word) : (s.setReg r v).cond = s.cond := rfl
@[simp] theorem setReg_run (r : RegIdx) (v : Word) : (s.setReg r v).run = s.run := rfl
@[simp] theorem setReg_mem (r : RegIdx) (v : Word) : (s.setReg r v).mem = s.mem := rfl
@[simp] theorem setReg_cfg (r : RegIdx) (v : Word) : (s.setReg r v).cfg = s.cfg := rfl
@[simp] theorem setReg_adapter (r : RegIdx) (v : Word) : (s.setReg r v).adapter = s.adapter := rfl
@[simp] theorem setReg_out (r : RegIdx) (v : Word) : (s.setReg r v).out = s.out := rfl

@[simp] theorem setPc_regs (target : Word) : (s.setPc target).regs = s.regs := rfl
@[simp] theorem setPc_pc (target : Word) : (s.setPc target).pc = target := rfl
@[simp] theorem setPc_cond (target : Word) : (s.setPc target).cond = s.cond := rfl
@[simp] theorem setPc_run (target : Word) : (s.setPc target).run = s.run := rfl
@[simp] theorem setPc_mem (target : Word) : (s.setPc target).mem = s.mem := rfl
@[simp] theorem setPc_cfg (target : Word) : (s.setPc target).cfg = s.cfg := rfl
@[simp] theorem setPc_adapter (target : Word) : (s.setPc target).adapter = s.adapter := rfl
@[simp] theorem setPc_out (target : Word) : (s.setPc target).out = s.out := rfl

@[simp] theorem memWrite_regs (a v : Word) : (s.memWrite a v).regs = s.regs := rfl
@[simp] theorem memWrite_pc (a v : Word) : (s.memWrite a v).pc = s.pc := rfl
@[simp] theorem memWrite_cond (a v : Word) : (s.memWrite a v).cond = s.cond := rfl
@[simp] theorem memWrite_run (a v : Word) : (s.memWrite a v).run = s.run := rfl
@[simp] theorem memWrite_mem (a v : Word) : (s.memWrite a v).mem = Memory.write s.mem a.toNat v := rfl
@[simp] theorem memWrite_cfg (a v : Word) : (s.memWrite a v).cfg = s.cfg := rfl
@[simp] theorem memWrite_adapter (a v : Word) : (s.memWrite a v).adapter = s.adapter := rfl
@[simp] theorem memWrite_out (a v : Word) : (s.memWrite a v).out = s.out := rfl

@[simp] theorem setcc_regs (v : Word) : (s.setcc v).regs = s.regs := rfl
@[simp] theorem setcc_pc (v : Word) : (s.setcc v).pc = s.pc := rfl
@[simp] theorem setcc_cond (v : Word) : (s.setcc v).cond = nzp v := rfl
@[simp] theorem setcc_run (v : Word) : (s.setcc v).run = s.run := rfl
@[simp] theorem setcc_mem (v : Word) : (s.setcc v).mem = s.mem := rfl
@[simp] theorem setcc_cfg (v : Word) : (s.setcc v).cfg = s.cfg := rfl
@[simp] theorem setcc_adapter (v : Word) : (s.setcc v).adapter = s.adapter := rfl
@[simp] theorem setcc_out (v : Word) : (s.setcc v).out = s.out := rfl

@[simp] theorem keyAvailable_regs : (s.keyAvailable.2).regs = s.regs := rfl
@[simp] theorem keyAvailable_pc : (s.keyAvailable.2).pc = s.pc := rfl
@[simp] theorem keyAvailable_cond : (s.keyAvailable.2).cond = s.cond := rfl
@[simp] theorem keyAvailable_run : (s.keyAvailable.2).run = s.run := rfl
@[simp] theorem keyAvailable_mem : (s.keyAvailable.2).mem = s.mem := rfl
@[simp] theorem keyAvailable_cfg : (s.keyAvailable.2).cfg = s.cfg := rfl
@[simp] theorem keyAvailable_adapter : (s.keyAvailable.2).adapter =
    { s.adapter with keyAnswers := s.adapter.keyAnswers.tail, calls := s.adapter.calls + 1 } := rfl
@[simp] theorem keyAvailable_out : (s.keyAvailable.2).out = s.out := rfl

@[simp] theorem readChar_regs : (s.readChar.2).regs = s.regs := rfl
@[simp] theorem readChar_pc : (s.readChar.2).pc = s.pc := rfl
@[simp] theorem readChar_cond : (s.readChar.2).cond = s.cond := rfl
@[simp] theorem readChar_run : (s.readChar.2).run = s.run := rfl
@[simp] theorem readChar_mem : (s.readChar.2).mem = s.mem := rfl
@[simp] theorem readChar_cfg : (s.readChar.2).cfg = s.cfg := rfl
@[simp] theorem readChar_adapter : (s.readChar.2).adapter =
    { s.adapter with charAnswers := s.adapter.charAnswers.tail, calls := s.adapter.calls + 1 } := rfl
@[simp] theorem readChar_out : (s.readChar.2).out = s.out := rfl

@[simp] theorem writeChar_regs (b : Byte) : (s.writeChar b).regs = s.regs := rfl
@[simp] theorem writeChar_pc (b : Byte) : (s.writeChar b).pc = s.pc := rfl
@[simp] theorem writeChar_cond (b : Byte) : (s.writeChar b).cond = s.cond := rfl
@[simp] theorem writeChar_run (b : Byte) : (s.writeChar b).run = s.run := rfl
@[simp] theorem writeChar_mem (b : Byte) : (s.writeChar b).mem = s.mem := rfl
@[simp] theorem writeChar_cfg (b : Byte) : (s.writeChar b).cfg = s.cfg := rfl
@[simp] theorem writeChar_adapter (b : Byte) : (s.writeChar b).adapter = s.adapter := rfl
@[simp] theorem writeChar_out (b : Byte) : (s.writeChar b).out = s.out ++ [.char b] := rfl

@[simp] theorem writeChars_regs (bs : List Byte) : (s.writeChars bs).regs = s.regs := rfl
@[simp] theorem writeChars_pc (bs : List Byte) : (s.writeChars bs).pc = s.pc := rfl
@[simp] theorem writeChars_cond (bs : List Byte) : (s.writeChars bs).cond = s.cond := rfl
@[simp] theorem writeChars_run (bs : List Byte) : (s.writeChars bs).run = s.run := rfl
@[simp] theorem writeChars_mem (bs : List Byte) : (s.writeChars bs).mem = s.mem := rfl
@[simp] theorem writeChars_cfg (bs : List Byte) : (s.writeChars bs).cfg = s.cfg := rfl
@[simp] theorem writeChars_adapter (bs : List Byte) : (s.writeChars bs).adapter = s.adapter := rfl
@[simp] theorem writeChars_out (bs : List Byte) : (s.writeChars bs).out = s.out ++ bs.map .char := rfl

@[simp] theorem flush_regs : (s.flush).regs = s.regs := rfl
@[simp] theorem flush_pc : (s.flush).pc = s.pc := rfl
@[simp] theorem flush_cond : (s.flush).cond = s.cond := rfl
@[simp] theorem flush_run : (s.flush).run = s.run := rfl
@[simp] theorem flush_mem : (s.flush).mem = s.mem := rfl
@[simp] theorem flush_cfg : (s.flush).cfg = s.cfg := rfl
@[simp] theorem flush_adapter : (s.flush).adapter = s.adapter := rfl
@[simp] theorem flush_out : (s.flush).out = s.out ++ [.flush] := rfl

@[simp] theorem takeFault_regs (reason : FaultReason) (word : Option Word) (addr : Word) : (s.takeFault reason word addr).regs = s.regs := rfl
@[simp] theorem takeFault_pc (reason : FaultReason) (word : Option Word) (addr : Word) : (s.takeFault reason word addr).pc = s.pc := rfl
@[simp] theorem takeFault_cond (reason : FaultReason) (word : Option Word) (addr : Word) : (s.takeFault reason word addr).cond = s.cond := rfl
@[simp] theorem takeFault_run (reason : FaultReason) (word : Option Word) (addr : Word) : (s.takeFault reason word addr).run = .faulted { reason, word, addr } := rfl
@[simp] theorem takeFault_mem (reason : FaultReason) (word : Option Word) (addr : Word) : (s.takeFault reason word addr).mem = s.mem := rfl
@[simp] theorem takeFault_cfg (reason : FaultReason) (word : Option Word) (addr : Word) : (s.takeFault reason word addr).cfg = s.cfg := rfl
@[simp] theorem takeFault_adapter (reason : FaultReason) (word : Option Word) (addr : Word) : (s.takeFault reason word addr).adapter = s.adapter := rfl
@[simp] theorem takeFault_out (reason : FaultReason) (word : Option Word) (addr : Word) : (s.takeFault reason word addr).out = s.out := rfl

@[simp] theorem faultIn_regs (i : Instr) (reason : FaultReason) : (s.faultIn i reason).regs = s.regs := rfl
@[simp] theorem faultIn_pc (i : Instr) (reason : FaultReason) : (s.faultIn i reason).pc = s.pc := rfl
@[simp] theorem faultIn_cond (i : Instr) (reason : FaultReason) : (s.faultIn i reason).cond = s.cond := rfl
@[simp] theorem faultIn_run (i : Instr) (reason : FaultReason) : (s.faultIn i reason).run =
    .faulted { reason, word := some (encode i), addr := s.pc - 1#16 } := rfl
@[simp] theorem faultIn_mem (i : Instr) (reason : FaultReason) : (s.faultIn i reason).mem = s.mem := rfl
@[simp] theorem faultIn_cfg (i : Instr) (reason : FaultReason) : (s.faultIn i reason).cfg = s.cfg := rfl
@[simp] theorem faultIn_adapter (i : Instr) (reason : FaultReason) : (s.faultIn i reason).adapter = s.adapter := rfl
@[simp] theorem faultIn_out (i : Instr) (reason : FaultReason) : (s.faultIn i reason).out = s.out := rfl

@[simp] theorem writeDR_regs (dr : RegIdx) (v : Word) : (s.writeDR dr v).regs = s.regs.set dr.toNat v dr.isLt := rfl
@[simp] theorem writeDR_pc (dr : RegIdx) (v : Word) : (s.writeDR dr v).pc = s.pc := rfl
@[simp] theorem writeDR_run (dr : RegIdx) (v : Word) : (s.writeDR dr v).run = s.run := rfl
@[simp] theorem writeDR_mem (dr : RegIdx) (v : Word) : (s.writeDR dr v).mem = s.mem := rfl
@[simp] theorem writeDR_cfg (dr : RegIdx) (v : Word) : (s.writeDR dr v).cfg = s.cfg := rfl
@[simp] theorem writeDR_adapter (dr : RegIdx) (v : Word) : (s.writeDR dr v).adapter = s.adapter := rfl
@[simp] theorem writeDR_out (dr : RegIdx) (v : Word) : (s.writeDR dr v).out = s.out := rfl

/-! ## One register and one word under updates -/

@[simp] theorem peek_setReg (r : RegIdx) (v : Word) (c : Word) : (s.setReg r v).peek c = s.peek c := rfl
@[simp] theorem reg_setPc (target : Word) (q : RegIdx) : (s.setPc target).reg q = s.reg q := rfl
@[simp] theorem peek_setPc (target : Word) (c : Word) : (s.setPc target).peek c = s.peek c := rfl
@[simp] theorem reg_memWrite (a v : Word) (q : RegIdx) : (s.memWrite a v).reg q = s.reg q := rfl
@[simp] theorem reg_setcc (v : Word) (q : RegIdx) : (s.setcc v).reg q = s.reg q := rfl
@[simp] theorem peek_setcc (v : Word) (c : Word) : (s.setcc v).peek c = s.peek c := rfl
@[simp] theorem reg_keyAvailable (q : RegIdx) : (s.keyAvailable.2).reg q = s.reg q := rfl
@[simp] theorem peek_keyAvailable (c : Word) : (s.keyAvailable.2).peek c = s.peek c := rfl
@[simp] theorem reg_readChar (q : RegIdx) : (s.readChar.2).reg q = s.reg q := rfl
@[simp] theorem peek_readChar (c : Word) : (s.readChar.2).peek c = s.peek c := rfl
@[simp] theorem reg_writeChar (b : Byte) (q : RegIdx) : (s.writeChar b).reg q = s.reg q := rfl
@[simp] theorem peek_writeChar (b : Byte) (c : Word) : (s.writeChar b).peek c = s.peek c := rfl
@[simp] theorem reg_writeChars (bs : List Byte) (q : RegIdx) : (s.writeChars bs).reg q = s.reg q := rfl
@[simp] theorem peek_writeChars (bs : List Byte) (c : Word) : (s.writeChars bs).peek c = s.peek c := rfl
@[simp] theorem reg_flush (q : RegIdx) : (s.flush).reg q = s.reg q := rfl
@[simp] theorem peek_flush (c : Word) : (s.flush).peek c = s.peek c := rfl
@[simp] theorem reg_takeFault (reason : FaultReason) (word : Option Word) (addr : Word) (q : RegIdx) : (s.takeFault reason word addr).reg q = s.reg q := rfl
@[simp] theorem peek_takeFault (reason : FaultReason) (word : Option Word) (addr : Word) (c : Word) : (s.takeFault reason word addr).peek c = s.peek c := rfl
@[simp] theorem reg_faultIn (i : Instr) (reason : FaultReason) (q : RegIdx) : (s.faultIn i reason).reg q = s.reg q := rfl
@[simp] theorem peek_faultIn (i : Instr) (reason : FaultReason) (c : Word) : (s.faultIn i reason).peek c = s.peek c := rfl
@[simp] theorem peek_writeDR (dr : RegIdx) (v : Word) (c : Word) : (s.writeDR dr v).peek c = s.peek c := rfl

/-- A register reads back what was written to it, and every other register as before (R21). -/
theorem reg_setReg (r q : RegIdx) (v : Word) : (s.setReg r v).reg q = if q = r then v else s.reg q := by
  simp only [State.reg, State.setReg, Vector.getElem_set, BitVec.toNat_inj]
  split <;> split <;> simp_all

@[simp] theorem reg_setReg_self (r : RegIdx) (v : Word) : (s.setReg r v).reg r = v := by simp [reg_setReg]

@[simp] theorem reg_setReg_ne {r q : RegIdx} (v : Word) (h : q ≠ r) : (s.setReg r v).reg q = s.reg q := by
  simp [reg_setReg, h]

@[simp] theorem writeDR_cond (dr : RegIdx) (v : Word) : (s.writeDR dr v).cond = nzp v := by
  show nzp ((s.setReg dr v).reg dr) = nzp v
  rw [reg_setReg_self]

@[simp] theorem reg_writeDR_self (dr : RegIdx) (v : Word) : (s.writeDR dr v).reg dr = v := reg_setReg_self s dr v

@[simp] theorem reg_writeDR_ne {dr q : RegIdx} (v : Word) (h : q ≠ dr) : (s.writeDR dr v).reg q = s.reg q :=
  reg_setReg_ne s v h

end Sys2Proof.Machine
end

