-- ==== Sys2Proof/Laws/Ops.lean ====
section
/-! SUPPORT. One lemma for each shared operation that says what it can do, for the proofs to cite. -/

namespace Sys2Proof.Machine

variable {s t u : State}

/-! ## One word of memory -/

@[simp] theorem peek_memWrite_self (s : State) (a v : Word) : (s.memWrite a v).peek a = v :=
  Memory.read_write_self _ _ _

@[simp] theorem peek_memWrite_ne (s : State) {a b : Word} (v : Word) (h : b ≠ a) :
    (s.memWrite a v).peek b = s.peek b :=
  Memory.read_write_ne fun e => h (BitVec.eq_of_toNat_eq e)

theorem memWrite_wf (s : State) (a v : Word) (h : Memory.wf s.mem) : Memory.wf (s.memWrite a v).mem :=
  Memory.wf_write h a.isLt

/-! ## What an operation that reads through the hook may change -/

/-- Only the adapter's answers and the two keyboard words may differ, the latter only if the adapter was called, and
memory stays canonical. -/
structure Polled (s t : State) : Prop where
  regs : t.regs = s.regs
  pc : t.pc = s.pc
  cond : t.cond = s.cond
  run : t.run = s.run
  cfg : t.cfg = s.cfg
  out : t.out = s.out
  elsewhere : ∀ a, a ≠ s.cfg.kbsrAddr → a ≠ s.cfg.kbdrAddr → t.peek a = s.peek a
  calls : s.adapter.calls ≤ t.adapter.calls
  idle : t.adapter.calls = s.adapter.calls → ∀ a, t.peek a = s.peek a
  wf : Memory.wf s.mem → Memory.wf t.mem

theorem Polled.refl (s : State) : Polled s s := ⟨rfl, rfl, rfl, rfl, rfl, rfl, fun _ _ _ => rfl, le_rfl, fun _ _ => rfl, id⟩

theorem Polled.reg (h : Polled s t) (r : RegIdx) : t.reg r = s.reg r := by simp only [State.reg, h.regs]

theorem Polled.trans (h : Polled s t) (h' : Polled t u) : Polled s u where
  regs := h'.regs.trans h.regs
  pc := h'.pc.trans h.pc
  cond := h'.cond.trans h.cond
  run := h'.run.trans h.run
  cfg := h'.cfg.trans h.cfg
  out := h'.out.trans h.out
  elsewhere a h₁ h₂ := (h'.elsewhere a (h.cfg ▸ h₁) (h.cfg ▸ h₂)).trans (h.elsewhere a h₁ h₂)
  calls := h.calls.trans h'.calls
  idle e a := (h'.idle (le_antisymm (e.trans_le h.calls) h'.calls) a).trans
    (h.idle (le_antisymm (h'.calls.trans e.le) h.calls) a)
  wf hm := h'.wf (h.wf hm)

/-- The stores of a poll, after the calls that come before them. -/
theorem poll_polled {f : State → State} (hf : ∀ u : State, (f u).regs = u.regs ∧ (f u).pc = u.pc ∧ (f u).cond = u.cond ∧
      (f u).run = u.run ∧ (f u).cfg = u.cfg ∧ (f u).out = u.out ∧ (f u).adapter = u.adapter ∧
      (∀ a, a ≠ u.cfg.kbsrAddr → a ≠ u.cfg.kbdrAddr → (f u).peek a = u.peek a) ∧
      (Memory.wf u.mem → Memory.wf (f u).mem))
    (h : Polled s t) (hcalls : s.adapter.calls < t.adapter.calls) : Polled s (f t) where
  regs := (hf t).1.trans h.regs
  pc := (hf t).2.1.trans h.pc
  cond := (hf t).2.2.1.trans h.cond
  run := (hf t).2.2.2.1.trans h.run
  cfg := (hf t).2.2.2.2.1.trans h.cfg
  out := (hf t).2.2.2.2.2.1.trans h.out
  elsewhere a h₁ h₂ :=
    ((hf t).2.2.2.2.2.2.2.1 a (h.cfg ▸ h₁) (h.cfg ▸ h₂)).trans (h.elsewhere a h₁ h₂)
  calls := by rw [(hf t).2.2.2.2.2.2.1]; exact h.calls
  idle e := by rw [(hf t).2.2.2.2.2.2.1] at e; omega
  wf hm := (hf t).2.2.2.2.2.2.2.2 (h.wf hm)

theorem pollFound_frame (c : Byte) (u : State) : (u.pollFound c).regs = u.regs ∧ (u.pollFound c).pc = u.pc ∧
    (u.pollFound c).cond = u.cond ∧ (u.pollFound c).run = u.run ∧ (u.pollFound c).cfg = u.cfg ∧
    (u.pollFound c).out = u.out ∧ (u.pollFound c).adapter = u.adapter ∧
    (∀ a, a ≠ u.cfg.kbsrAddr → a ≠ u.cfg.kbdrAddr → (u.pollFound c).peek a = u.peek a) ∧
    (Memory.wf u.mem → Memory.wf (u.pollFound c).mem) := by
  unfold State.pollFound
  split <;> exact ⟨rfl, rfl, rfl, rfl, rfl, rfl, rfl, fun a h₁ h₂ => by simp [h₁, h₂],
    fun h => memWrite_wf _ _ _ (memWrite_wf _ _ _ h)⟩

theorem pollEmpty_frame (u : State) : u.pollEmpty.regs = u.regs ∧ u.pollEmpty.pc = u.pc ∧
    u.pollEmpty.cond = u.cond ∧ u.pollEmpty.run = u.run ∧ u.pollEmpty.cfg = u.cfg ∧
    u.pollEmpty.out = u.out ∧ u.pollEmpty.adapter = u.adapter ∧
    (∀ a, a ≠ u.cfg.kbsrAddr → a ≠ u.cfg.kbdrAddr → u.pollEmpty.peek a = u.peek a) ∧
    (Memory.wf u.mem → Memory.wf u.pollEmpty.mem) := by
  unfold State.pollEmpty
  split <;> exact ⟨rfl, rfl, rfl, rfl, rfl, rfl, rfl, fun a h₁ _ => by simp [h₁], memWrite_wf _ _ _⟩

theorem keyAvailable_polled (s : State) : Polled s s.keyAvailable.2 :=
  ⟨rfl, rfl, rfl, rfl, rfl, rfl, fun _ _ _ => rfl, Nat.le_succ _, fun _ _ => rfl, id⟩

theorem readChar_polled (s : State) : Polled s s.readChar.2 :=
  ⟨rfl, rfl, rfl, rfl, rfl, rfl, fun _ _ _ => rfl, Nat.le_succ _, fun _ _ => rfl, id⟩

/-- What a read of KBSR can do: no key; a key and a character; a key and no character. -/
theorem readKbsr_cases (s : State) :
    (s.keyAvailable.1 = false ∧
      s.readKbsr = .ok (s.keyAvailable.2.pollEmpty.peek s.cfg.kbsrAddr) s.keyAvailable.2.pollEmpty) ∨
    (∃ c, s.keyAvailable.1 = true ∧ s.keyAvailable.2.readChar.1 = some c ∧
      s.readKbsr = .ok ((s.keyAvailable.2.readChar.2.pollFound c).peek s.cfg.kbsrAddr)
        (s.keyAvailable.2.readChar.2.pollFound c)) ∨
    (s.keyAvailable.1 = true ∧ s.keyAvailable.2.readChar.1 = none ∧
      s.readKbsr = .fail .adapterContract s.keyAvailable.2.readChar.2) := by
  unfold State.readKbsr
  cases hk : s.keyAvailable.1 with
  | false => exact .inl ⟨rfl, by simp [hk]⟩
  | true =>
    cases hc : s.keyAvailable.2.readChar.1 with
    | none => exact .inr (.inr ⟨rfl, rfl, by simp [hk, hc]⟩)
    | some c => exact .inr (.inl ⟨c, rfl, rfl, by simp [hk, hc]⟩)

theorem memRead_of_ne (s : State) {a : Word} (h : a ≠ s.cfg.kbsrAddr) : s.memRead a = .ok (s.peek a) s := by
  simp [State.memRead, h]

theorem memRead_kbsr (s : State) : s.memRead s.cfg.kbsrAddr = s.readKbsr := by simp [State.memRead]

/-- A read that answers gives the word its state holds at the address, and changes no more than a poll does. -/
theorem memRead_ok {a v : Word} (h : s.memRead a = .ok v t) : v = t.peek a ∧ Polled s t := by
  by_cases ha : a = s.cfg.kbsrAddr
  · subst ha
    rw [memRead_kbsr] at h
    obtain ⟨-, e⟩ | ⟨c, -, -, e⟩ | ⟨-, -, e⟩ := readKbsr_cases s
    · obtain ⟨rfl, rfl⟩ := Access.ok.inj (e.symm.trans h)
      exact ⟨rfl, poll_polled pollEmpty_frame (keyAvailable_polled s) (Nat.lt_succ_self _)⟩
    · obtain ⟨rfl, rfl⟩ := Access.ok.inj (e.symm.trans h)
      exact ⟨rfl, poll_polled (pollFound_frame c) ((keyAvailable_polled s).trans (readChar_polled _))
        (Nat.lt_succ_of_lt (Nat.lt_succ_self _))⟩
    · cases e.symm.trans h
  · rw [memRead_of_ne s ha] at h
    obtain ⟨rfl, rfl⟩ := Access.ok.inj h
    exact ⟨rfl, Polled.refl _⟩

/-- A read fails only at KBSR, when the adapter reports a key and gives no character; only the adapter's answers are
used up. -/
theorem memRead_fail {a : Word} {r : FaultReason} (h : s.memRead a = .fail r t) :
    a = s.cfg.kbsrAddr ∧ r = .adapterContract ∧ t = { s with adapter := t.adapter } ∧ Polled s t := by
  by_cases ha : a = s.cfg.kbsrAddr
  · subst ha
    rw [memRead_kbsr] at h
    obtain ⟨-, e⟩ | ⟨c, -, -, e⟩ | ⟨-, -, e⟩ := readKbsr_cases s
    · cases e.symm.trans h
    · cases e.symm.trans h
    · obtain ⟨rfl, rfl⟩ := Access.fail.inj (e.symm.trans h)
      exact ⟨rfl, rfl, rfl, (keyAvailable_polled s).trans (readChar_polled _)⟩
  · rw [memRead_of_ne s ha] at h
    cases h

/-- What a read by an instruction can do. -/
theorem readThen_cases (s : State) (i : Instr) (a : Word) (k : Word → State → State) :
    (∃ v t, s.memRead a = .ok v t ∧ s.readThen i a k = k v t) ∨
    (∃ r t, s.memRead a = .fail r t ∧ s.readThen i a k = t.faultIn i r) := by
  unfold State.readThen
  cases s.memRead a with
  | ok v t => exact .inl ⟨v, t, rfl, rfl⟩
  | fail r t => exact .inr ⟨r, t, rfl, rfl⟩

/-- A read that an instruction makes away from KBSR. -/
@[simp] theorem readThen_of_ne (s : State) (i : Instr) {a : Word} (k : Word → State → State)
    (h : a ≠ s.cfg.kbsrAddr) : s.readThen i a k = k (s.peek a) s := by
  simp [State.readThen, memRead_of_ne s h]

/-! ## Fetch, branch, string reads -/

/-- What a fetch can do. -/
theorem fetch_cases (s : State) :
    (∃ w t, s.memRead s.pc = .ok w t ∧ s.fetch = .ok w (t.setPc (s.pc + 1#16))) ∨
    (∃ r t, s.memRead s.pc = .fail r t ∧ s.fetch = .fail r t) := by
  unfold State.fetch
  cases s.memRead s.pc with
  | ok w t => exact .inl ⟨w, t, rfl, rfl⟩
  | fail r t => exact .inr ⟨r, t, rfl, rfl⟩

/-- What a branch can do. -/
theorem branch_cases (s : State) (mask : BitVec 3) (off : BitVec 9) :
    (mask &&& s.cond ≠ 0#3 ∧ s.branch mask off = s.setPc (s.pc + sext off)) ∨
    (mask &&& s.cond = 0#3 ∧ s.branch mask off = s) := by
  unfold State.branch State.branchTaken State.pcRelative
  by_cases h : mask &&& s.cond = 0#3
  · exact .inr ⟨h, by simp [h]⟩
  · exact .inl ⟨h, by simp [h]⟩

theorem strRead_ok {a v : Word} (h : s.strRead a = .ok v t) : v = t.peek a ∧ Polled s t := by
  unfold State.strRead at h
  split at h
  · obtain ⟨rfl, rfl⟩ := Access.ok.inj h
    exact ⟨rfl, Polled.refl _⟩
  · exact memRead_ok h

theorem strRead_fail {a : Word} {r : FaultReason} (h : s.strRead a = .fail r t) :
    a = s.cfg.kbsrAddr ∧ r = .adapterContract ∧ t = { s with adapter := t.adapter } ∧ Polled s t := by
  unfold State.strRead at h
  split at h
  · cases h
  · exact memRead_fail h

/-! ## String scans -/

/-- Only output is added; everything else but the run state is as polls may leave it. -/
structure Emitted (s t : State) : Prop where
  regs : t.regs = s.regs
  pc : t.pc = s.pc
  cond : t.cond = s.cond
  cfg : t.cfg = s.cfg
  out : ∃ events, t.out = s.out ++ events
  elsewhere : ∀ a, a ≠ s.cfg.kbsrAddr → a ≠ s.cfg.kbdrAddr → t.peek a = s.peek a
  calls : s.adapter.calls ≤ t.adapter.calls
  idle : t.adapter.calls = s.adapter.calls → ∀ a, t.peek a = s.peek a
  wf : Memory.wf s.mem → Memory.wf t.mem

theorem Polled.emitted (h : Polled s t) : Emitted s t :=
  ⟨h.regs, h.pc, h.cond, h.cfg, ⟨[], by simp [h.out]⟩, h.elsewhere, h.calls, h.idle, h.wf⟩

theorem Emitted.trans (h : Emitted s t) (h' : Emitted t u) : Emitted s u where
  regs := h'.regs.trans h.regs
  pc := h'.pc.trans h.pc
  cond := h'.cond.trans h.cond
  cfg := h'.cfg.trans h.cfg
  out := by
    obtain ⟨es, hs⟩ := h.out
    obtain ⟨es', hs'⟩ := h'.out
    exact ⟨es ++ es', by rw [hs', hs, List.append_assoc]⟩
  elsewhere a h₁ h₂ := (h'.elsewhere a (h.cfg ▸ h₁) (h.cfg ▸ h₂)).trans (h.elsewhere a h₁ h₂)
  calls := h.calls.trans h'.calls
  idle e a := (h'.idle (le_antisymm (e.trans_le h.calls) h'.calls) a).trans
    (h.idle (le_antisymm (h'.calls.trans e.le) h.calls) a)
  wf hm := h'.wf (h.wf hm)

theorem faultIn_emitted (s : State) (i : Instr) (r : FaultReason) : Emitted s (s.faultIn i r) :=
  ⟨rfl, rfl, rfl, rfl, ⟨[], by simp⟩, fun _ _ _ => rfl, le_rfl, fun _ _ => rfl, id⟩

theorem writeChar_emitted (s : State) (b : Byte) : Emitted s (s.writeChar b) :=
  ⟨rfl, rfl, rfl, rfl, ⟨_, rfl⟩, fun _ _ _ => rfl, le_rfl, fun _ _ => rfl, id⟩

theorem emitLow_emitted (v : Word) (s : State) : Emitted s (emitLow v s) := writeChar_emitted s _

theorem emitPacked_emitted (v : Word) (s : State) : Emitted s (emitPacked v s) := by
  unfold emitPacked
  split
  · exact writeChar_emitted s _
  · exact (writeChar_emitted s _).trans (writeChar_emitted _ _)

/-- A scan only adds output, but for its polls and the run state. -/
theorem scan_emitted (i : Instr) {emit : Word → State → State} (hemit : ∀ v s, Emitted s (emit v s)) (above : Nat)
    (a : Word) (s : State) : Emitted s (scan i emit above a s) := by
  induction above generalizing a s with
  | zero =>
    unfold scan
    cases h : s.strRead a with
    | fail r t => exact (strRead_fail h).2.2.2.emitted.trans (faultIn_emitted _ _ _)
    | ok v t =>
      have ht := (strRead_ok h).2.emitted
      by_cases hv : v = 0x0000#16
      · simpa [hv] using ht
      · simpa [hv] using ht.trans ((hemit v t).trans (faultIn_emitted _ _ _))
  | succ above ih =>
    unfold scan
    cases h : s.strRead a with
    | fail r t => exact (strRead_fail h).2.2.2.emitted.trans (faultIn_emitted _ _ _)
    | ok v t =>
      have ht := (strRead_ok h).2.emitted
      by_cases hv : v = 0x0000#16
      · simpa [hv] using ht
      · simpa [hv] using ht.trans ((hemit v t).trans (ih _ _))

theorem trapPuts_emitted (s : State) (i : Instr) : Emitted s (s.trapPuts i) := scan_emitted i emitLow_emitted _ _ s

theorem trapPutsp_emitted (s : State) (i : Instr) : Emitted s (s.trapPutsp i) := scan_emitted i emitPacked_emitted _ _ s

end Sys2Proof.Machine
end

