-- ==== Sys2Proof/Laws/PerInstr.lean ====
section
/-! SUPPORT. Facts made for each instruction as syntax, one lemma for each constructor.

`OpcodeBits`: bits 15:12 of an instruction's word are the value of its opcode (spec/30_encoding.md R81, R82). -/

namespace Sys2Proof.Laws.OpcodeBits

/-- The fact, for one instruction. -/
def Statement (i : Instr) : Prop := field (encode i) 12 4 = i.opcode.value

/-- A word whose four high bits are those of `o` has `o` as its opcode field. -/
theorem field_eq {w : Word} {o : BitVec 4} (h : ∀ k, k < 4 → w.getLsbD (12 + k) = o.getLsbD k) :
    field w 12 4 = o := by
  apply BitVec.eq_of_getLsbD_eq
  intro k hk
  simp only [field, BitVec.getLsbD_extractLsb', hk, decide_true, Bool.true_and]
  exact h k hk

theorem br (mask : BitVec 3) (off : BitVec 9) : Statement (.br mask off) := field_eq fun k hk => by
  simp only [encode, brWord, Instr.opcode, Opcode.value, BitVec.getLsbD_append]
  interval_cases k <;> simp

theorem addReg (dr sr1 : RegIdx) (ign : BitVec 2) (sr2 : RegIdx) : Statement (.addReg dr sr1 ign sr2) := field_eq fun k hk => by
  simp only [encode, Instr.opcode, Opcode.value, BitVec.getLsbD_append]
  interval_cases k <;> simp

theorem addImm (dr sr1 : RegIdx) (imm : BitVec 5) : Statement (.addImm dr sr1 imm) := field_eq fun k hk => by
  simp only [encode, Instr.opcode, Opcode.value, BitVec.getLsbD_append]
  interval_cases k <;> simp

theorem ld (dr : RegIdx) (off : BitVec 9) : Statement (.ld dr off) := field_eq fun k hk => by
  simp only [encode, Instr.opcode, Opcode.value, BitVec.getLsbD_append]
  interval_cases k <;> simp

theorem st (sr : RegIdx) (off : BitVec 9) : Statement (.st sr off) := field_eq fun k hk => by
  simp only [encode, Instr.opcode, Opcode.value, BitVec.getLsbD_append]
  interval_cases k <;> simp

theorem jsr (off : BitVec 11) : Statement (.jsr off) := field_eq fun k hk => by
  simp only [encode, Instr.opcode, Opcode.value, BitVec.getLsbD_append]
  interval_cases k <;> simp

theorem jsrr (ign : BitVec 2) (base : RegIdx) (ign' : BitVec 6) : Statement (.jsrr ign base ign') := field_eq fun k hk => by
  simp only [encode, Instr.opcode, Opcode.value, BitVec.getLsbD_append]
  interval_cases k <;> simp

theorem andReg (dr sr1 : RegIdx) (ign : BitVec 2) (sr2 : RegIdx) : Statement (.andReg dr sr1 ign sr2) := field_eq fun k hk => by
  simp only [encode, Instr.opcode, Opcode.value, BitVec.getLsbD_append]
  interval_cases k <;> simp

theorem andImm (dr sr1 : RegIdx) (imm : BitVec 5) : Statement (.andImm dr sr1 imm) := field_eq fun k hk => by
  simp only [encode, Instr.opcode, Opcode.value, BitVec.getLsbD_append]
  interval_cases k <;> simp

theorem ldr (dr base : RegIdx) (off : BitVec 6) : Statement (.ldr dr base off) := field_eq fun k hk => by
  simp only [encode, Instr.opcode, Opcode.value, BitVec.getLsbD_append]
  interval_cases k <;> simp

theorem str (sr base : RegIdx) (off : BitVec 6) : Statement (.str sr base off) := field_eq fun k hk => by
  simp only [encode, Instr.opcode, Opcode.value, BitVec.getLsbD_append]
  interval_cases k <;> simp

theorem rti (ign : BitVec 12) : Statement (.rti ign) := field_eq fun k hk => by
  simp only [encode, Instr.opcode, Opcode.value, BitVec.getLsbD_append]
  interval_cases k <;> simp

theorem notReg (dr sr : RegIdx) (ign : BitVec 6) : Statement (.notReg dr sr ign) := field_eq fun k hk => by
  simp only [encode, Instr.opcode, Opcode.value, BitVec.getLsbD_append]
  interval_cases k <;> simp

theorem ldi (dr : RegIdx) (off : BitVec 9) : Statement (.ldi dr off) := field_eq fun k hk => by
  simp only [encode, Instr.opcode, Opcode.value, BitVec.getLsbD_append]
  interval_cases k <;> simp

theorem sti (sr : RegIdx) (off : BitVec 9) : Statement (.sti sr off) := field_eq fun k hk => by
  simp only [encode, Instr.opcode, Opcode.value, BitVec.getLsbD_append]
  interval_cases k <;> simp

theorem jmp (ign : BitVec 3) (base : RegIdx) (ign' : BitVec 6) : Statement (.jmp ign base ign') := field_eq fun k hk => by
  simp only [encode, jmpWord, Instr.opcode, Opcode.value, BitVec.getLsbD_append]
  interval_cases k <;> simp

theorem res (ign : BitVec 12) : Statement (.res ign) := field_eq fun k hk => by
  simp only [encode, Instr.opcode, Opcode.value, BitVec.getLsbD_append]
  interval_cases k <;> simp

theorem lea (dr : RegIdx) (off : BitVec 9) : Statement (.lea dr off) := field_eq fun k hk => by
  simp only [encode, Instr.opcode, Opcode.value, BitVec.getLsbD_append]
  interval_cases k <;> simp

theorem trap (ign : BitVec 4) (vect : BitVec 8) : Statement (.trap ign vect) := field_eq fun k hk => by
  simp only [encode, trapWord, Instr.opcode, Opcode.value, BitVec.getLsbD_append]
  interval_cases k <;> simp

theorem ret (ign : BitVec 3) (ign' : BitVec 6) : Statement (.ret ign ign') := field_eq fun k hk => by
  simp only [encode, jmpWord, Instr.opcode, Opcode.value, BitVec.getLsbD_append]
  interval_cases k <;> simp

theorem getc (ign : BitVec 4) : Statement (.getc ign) := field_eq fun k hk => by
  simp only [encode, trapWord, Instr.opcode, Opcode.value, BitVec.getLsbD_append]
  interval_cases k <;> simp

theorem out (ign : BitVec 4) : Statement (.out ign) := field_eq fun k hk => by
  simp only [encode, trapWord, Instr.opcode, Opcode.value, BitVec.getLsbD_append]
  interval_cases k <;> simp

theorem puts (ign : BitVec 4) : Statement (.puts ign) := field_eq fun k hk => by
  simp only [encode, trapWord, Instr.opcode, Opcode.value, BitVec.getLsbD_append]
  interval_cases k <;> simp

theorem inp (ign : BitVec 4) : Statement (.inp ign) := field_eq fun k hk => by
  simp only [encode, trapWord, Instr.opcode, Opcode.value, BitVec.getLsbD_append]
  interval_cases k <;> simp

theorem putsp (ign : BitVec 4) : Statement (.putsp ign) := field_eq fun k hk => by
  simp only [encode, trapWord, Instr.opcode, Opcode.value, BitVec.getLsbD_append]
  interval_cases k <;> simp

theorem halt (ign : BitVec 4) : Statement (.halt ign) := field_eq fun k hk => by
  simp only [encode, trapWord, Instr.opcode, Opcode.value, BitVec.getLsbD_append]
  interval_cases k <;> simp

theorem brn (off : BitVec 9) : Statement (.brn off) := field_eq fun k hk => by
  simp only [encode, brWord, Instr.opcode, Opcode.value, BitVec.getLsbD_append]
  interval_cases k <;> simp

theorem brz (off : BitVec 9) : Statement (.brz off) := field_eq fun k hk => by
  simp only [encode, brWord, Instr.opcode, Opcode.value, BitVec.getLsbD_append]
  interval_cases k <;> simp

theorem brp (off : BitVec 9) : Statement (.brp off) := field_eq fun k hk => by
  simp only [encode, brWord, Instr.opcode, Opcode.value, BitVec.getLsbD_append]
  interval_cases k <;> simp

theorem brnz (off : BitVec 9) : Statement (.brnz off) := field_eq fun k hk => by
  simp only [encode, brWord, Instr.opcode, Opcode.value, BitVec.getLsbD_append]
  interval_cases k <;> simp

theorem brnp (off : BitVec 9) : Statement (.brnp off) := field_eq fun k hk => by
  simp only [encode, brWord, Instr.opcode, Opcode.value, BitVec.getLsbD_append]
  interval_cases k <;> simp

theorem brzp (off : BitVec 9) : Statement (.brzp off) := field_eq fun k hk => by
  simp only [encode, brWord, Instr.opcode, Opcode.value, BitVec.getLsbD_append]
  interval_cases k <;> simp

theorem brnzp (off : BitVec 9) : Statement (.brnzp off) := field_eq fun k hk => by
  simp only [encode, brWord, Instr.opcode, Opcode.value, BitVec.getLsbD_append]
  interval_cases k <;> simp

end Sys2Proof.Laws.OpcodeBits
end

