-- ==== Sys2Proof/Tests/Slice0.lean ====
section
/-! SUPPORT. Small tests. Expected results come from the spec: the bit patterns of spec/30_encoding.md, the worked examples
of spec/41_operate.md to 45_reserved.md and the vectors of spec/95_test_vectors.md (V...). Then one witness for the
hypotheses of each statement of Obligations.lean. -/

namespace Sys2Proof.Tests

open Sys2Proof.Machine

/-! ## Small states -/

/-- The state at an address, flags Z. -/
def at' (pc : Word) : State := { State.reset with pc, cond := 0b010#3 }

/-- The state with words stored. -/
def storing (cells : List (Word × Word)) (s : State) : State := cells.foldl (fun s c => s.memWrite c.1 c.2) s

/-- The state with the adapter's answers scripted. -/
def typing (keys : List Bool) (chars : List (Option Byte)) (s : State) : State :=
  { s with adapter := { keyAnswers := keys, charAnswers := chars, calls := 0 } }

def topBitOnly (s : State) : State := { s with cfg := { s.cfg with kbPollWrite := .topBitOnly } }
def hooked (s : State) : State := { s with cfg := { s.cfg with trapStringRead := .hooked } }
def baseFirst (s : State) : State := { s with cfg := { s.cfg with jsrrOrder := .baseFirst } }

/-- The state after an instruction, or after a step. -/
def after (r : Result) : State :=
  match r with
  | .next t => t
  | .fault _ => State.reset
  | .refused _ => State.reset

/-- PC inside the execute part of an instruction at 0x3000, and at 0xFDFF, where an offset of 0 reaches KBSR. -/
def s3001 : State := at' 0x3001#16
def sFE00 : State := at' 0xFE00#16

/-! ## Well-formedness: an ill-formed term for each check -/

theorem test_wf_refuses_br_of_a_named_mask : (Instr.br 0b100#3 1#9).wf = false := by decide
theorem test_wf_refuses_jmp_of_r7 : (Instr.jmp 0#3 7#3 0#6).wf = false := by decide
theorem test_wf_refuses_trap_of_a_service : (Instr.trap 0#4 0x25#8).wf = false ∧ (Instr.trap 0#4 0x20#8).wf = false := by
  decide
theorem test_wf_accepts : (Instr.br 0#3 1#9).wf ∧ (Instr.jmp 0#3 6#3 0#6).wf ∧ (Instr.trap 0#4 0x1F#8).wf ∧
    (Instr.trap 0#4 0x26#8).wf := by decide

/-! ## Decoding: a word of each row, written from R85 to R95 -/

theorem test_decode_br : decode 0b0000_000_100000001#16 = .br 0#3 0x101#9 := by decide
theorem test_decode_addReg : decode 0b0001_010_011_0_11_100#16 = .addReg 2#3 3#3 3#2 4#3 := by decide
theorem test_decode_addImm : decode 0b0001_000_001_1_11101#16 = .addImm 0#3 1#3 0x1D#5 := by decide
theorem test_decode_ld : decode 0b0010_101_011111110#16 = .ld 5#3 0xFE#9 := by decide
theorem test_decode_st : decode 0b0011_110_000000101#16 = .st 6#3 5#9 := by decide
theorem test_decode_jsr : decode 0b0100_1_10000000001#16 = .jsr 0x401#11 := by decide
theorem test_decode_jsrr : decode 0b0100_0_10_011_000001#16 = .jsrr 2#2 3#3 1#6 := by decide
theorem test_decode_andReg : decode 0b0101_001_010_0_00_011#16 = .andReg 1#3 2#3 0#2 3#3 := by decide
theorem test_decode_andImm : decode 0b0101_010_101_1_01111#16 = .andImm 2#3 5#3 0xF#5 := by decide
theorem test_decode_ldr : decode 0b0110_011_010_100000#16 = .ldr 3#3 2#3 0x20#6 := by decide
theorem test_decode_str : decode 0b0111_101_100_000001#16 = .str 5#3 4#3 1#6 := by decide
theorem test_decode_rti : decode 0b1000_000000000001#16 = .rti 1#12 := by decide
theorem test_decode_notReg : decode 0b1001_101_011_111111#16 = .notReg 5#3 3#3 0x3F#6 := by decide
theorem test_decode_ldi : decode 0b1010_011_000000001#16 = .ldi 3#3 1#9 := by decide
theorem test_decode_sti : decode 0b1011_011_000000011#16 = .sti 3#3 3#9 := by decide
theorem test_decode_jmp : decode 0b1100_001_010_000100#16 = .jmp 1#3 2#3 4#6 := by decide
theorem test_decode_res : decode 0b1101_111111111110#16 = .res 0xFFE#12 := by decide
theorem test_decode_lea : decode 0b1110_010_000000111#16 = .lea 2#3 7#9 := by decide
theorem test_decode_trap : decode 0b1111_0001_00100110#16 = .trap 1#4 0x26#8 := by decide
theorem test_decode_ret : decode 0b1100_100_111_000010#16 = .ret 4#3 2#6 := by decide
theorem test_decode_getc : decode 0b1111_0000_00100000#16 = .getc 0#4 := by decide
theorem test_decode_out : decode 0b1111_0000_00100001#16 = .out 0#4 := by decide
theorem test_decode_puts : decode 0b1111_0000_00100010#16 = .puts 0#4 := by decide
theorem test_decode_in : decode 0b1111_0000_00100011#16 = .inp 0#4 := by decide
theorem test_decode_putsp : decode 0b1111_0000_00100100#16 = .putsp 0#4 := by decide
theorem test_decode_halt : decode 0b1111_1111_00100101#16 = .halt 0xF#4 := by decide
theorem test_decode_brn : decode 0b0000_100_100000000#16 = .brn 0x100#9 := by decide
theorem test_decode_brz : decode 0b0000_010_011111111#16 = .brz 0xFF#9 := by decide
theorem test_decode_brp : decode 0b0000_001_111111101#16 = .brp 0x1FD#9 := by decide
theorem test_decode_brnz : decode 0b0000_110_000000001#16 = .brnz 1#9 := by decide
theorem test_decode_brnp : decode 0b0000_101_000000101#16 = .brnp 5#9 := by decide
theorem test_decode_brzp : decode 0b0000_011_000000001#16 = .brzp 1#9 := by decide
theorem test_decode_brnzp : decode 0b0000_111_111111111#16 = .brnzp 0x1FF#9 := by decide

/-- R80: a row of no bits, or of more than one word, is no instruction. -/
theorem test_decodeTableWord_length : decodeTableWord 0 0 = none ∧ decodeTableWord 17 0 = none ∧
    decodeTable 17 0 = .error .notOneWord ∧ decodeWords [] = .error .noWord ∧
    decodeTableWord 16 0xD000 = some (.res 0#12) := ⟨rfl, rfl, rfl, rfl, by decide⟩

/-! ## Bits and flags: V1, E3 -/

theorem test_sext : sext 0b11101#5 = 0xFFFD#16 ∧ sext 0b01111#5 = 0x000F#16 ∧ sext 0b100000#6 = 0xFFE0#16 ∧
    sext 0x100#9 = 0xFF00#16 ∧ sext 0x0FF#9 = 0x00FF#16 ∧ sext 0x400#11 = 0xFC00#16 := by decide
theorem test_bytes : zext16 0xE9#8 = 0x00E9#16 ∧ low8 0x4142#16 = 0x42#8 ∧ high8 0x4142#16 = 0x41#8 := by decide
theorem test_nzp : nzp 0x0000#16 = 0b010#3 ∧ nzp 0x8000#16 = 0b100#3 ∧ nzp 0x0001#16 = 0b001#3 ∧
    nzp 0x7FFF#16 = 0b001#3 ∧ nzp 0xFFFF#16 = 0b100#3 := by decide

/-! ## Operate: V2 -/

/-- V2.1: signed overflow wraps. -/
theorem test_addReg : let t := after (exec (.addReg 2#3 3#3 0#2 4#3) ((s3001.setReg 3#3 0x7FFF#16).setReg 4#3 1#16))
    t.reg 2#3 = 0x8000#16 ∧ t.cond = 0b100#3 := by decide
/-- V2.2: source and destination are the same register. -/
theorem test_addReg_same : let t := after (exec (.addReg 1#3 1#3 0#2 1#3) (s3001.setReg 1#3 0x8000#16))
    t.reg 1#3 = 0x0000#16 ∧ t.cond = 0b010#3 := by decide
/-- E4. -/
theorem test_addImm : let t := after (exec (.addImm 0#3 1#3 0b11101#5) (s3001.setReg 1#3 5#16))
    t.reg 0#3 = 2#16 ∧ t.cond = 0b001#3 ∧ t.pc = 0x3001#16 := by decide
/-- V2.7. -/
theorem test_andReg : let t := after (exec (.andReg 1#3 2#3 0#2 3#3) ((s3001.setReg 2#3 0xF0F0#16).setReg 3#3 0xFF00#16))
    t.reg 1#3 = 0xF000#16 ∧ t.cond = 0b100#3 := by decide
/-- V2.8: the immediate is sign-extended. -/
theorem test_andImm : let t := after (exec (.andImm 4#3 4#3 0x1F#5) (s3001.setReg 4#3 0x1234#16))
    t.reg 4#3 = 0x1234#16 ∧ t.cond = 0b001#3 := by decide
/-- V2.10. -/
theorem test_not : let t := after (exec (.notReg 5#3 3#3 0x3F#6) (s3001.setReg 3#3 5#16))
    t.reg 5#3 = 0xFFFA#16 ∧ t.cond = 0b100#3 := by decide

/-! ## Loads and stores: V3 -/

/-- V3.1. -/
theorem test_ld : let t := after (exec (.ld 0#3 2#9) (storing [(0x3003#16, 0x8001#16)] s3001))
    t.reg 0#3 = 0x8001#16 ∧ t.cond = 0b100#3 := by decide
/-- V3.6: a poll under TopBitOnly with no key. -/
theorem test_ld_poll_topBitOnly :
    let t := after (exec (.ld 0#3 0#9) (topBitOnly (typing [false] [] (storing [(0xFE00#16, 0x8123#16)] sFE00))))
    t.peek 0xFE00#16 = 0x0123#16 ∧ t.reg 0#3 = 0x0123#16 ∧ t.cond = 0b001#3 := by decide
/-- E5. -/
theorem test_ldi :
    let t := after (exec (.ldi 3#3 1#9) (storing [(0x3002#16, 0x3100#16), (0x3100#16, 0x1234#16)] s3001))
    t.reg 3#3 = 0x1234#16 ∧ t.cond = 0b001#3 := by decide
/-- R251: the pointer polls, the data read breaks the contract, and the record keeps the instruction's word. -/
theorem test_ldi_fault :
    let s := typing [true] [none] (storing [(0x3002#16, 0xFE00#16)] s3001)
    (after (exec (.ldi 3#3 1#9) s)).run =
      .faulted { reason := .adapterContract, word := some 0xA601#16, addr := 0x3000#16 } := by decide
/-- V3.11: the address wraps. -/
theorem test_ldr : let t := after (exec (.ldr 0#3 1#3 0x20#6) (storing [(0xFFF0#16, 7#16)] (s3001.setReg 1#3 0x10#16)))
    t.reg 0#3 = 7#16 ∧ t.cond = 0b001#3 := by decide
/-- V3.12: base and destination are the same register. -/
theorem test_ldr_same :
    let t := after (exec (.ldr 4#3 4#3 31#6) (storing [(0x401F#16, 0xFFFF#16)] (s3001.setReg 4#3 0x4000#16)))
    t.reg 4#3 = 0xFFFF#16 ∧ t.cond = 0b100#3 := by decide
/-- V3.14: LEA sets the flags. -/
theorem test_lea : let t := after (exec (.lea 0#3 0x1FF#9) ((at' 1#16).setReg 0#3 9#16))
    t.reg 0#3 = 0#16 ∧ t.cond = 0b010#3 := by decide
/-- V3.16. -/
theorem test_st : let t := after (exec (.st 0#3 5#9) (s3001.setReg 0#3 0xABCD#16))
    t.peek 0x3006#16 = 0xABCD#16 ∧ t.cond = 0b010#3 := by decide
/-- V3.21: a store to KBSR calls nothing. -/
theorem test_st_kbsr : let t := after (exec (.st 0#3 0#9) (sFE00.setReg 0#3 0x1234#16))
    t.peek 0xFE00#16 = 0x1234#16 ∧ t.adapter.calls = 0 := by decide
/-- V3.18. -/
theorem test_sti : let t := after (exec (.sti 3#3 3#9) (storing [(0x3004#16, 0x4000#16)] (s3001.setReg 3#3 5#16)))
    t.peek 0x4000#16 = 5#16 ∧ t.peek 0x3004#16 = 0x4000#16 := by decide
/-- V3.20. -/
theorem test_str : (after (exec (.str 2#3 2#3 0#6) (s3001.setReg 2#3 0x1111#16))).peek 0x1111#16 = 0x1111#16 := by decide

/-! ## Control: V4 -/

/-- V4.5, V4.9: mask 000 is never taken, and a mask meets flags that are not one-hot. -/
theorem test_br : (after (exec (.br 0#3 5#9) { s3001 with cond := 0b111#3 })).pc = 0x3001#16 ∧
    (after (exec (.brnp 5#9) { s3001 with cond := 0b101#3 })).pc = 0x3006#16 := by decide
/-- V4.1, V4.2. -/
theorem test_brp : (after (exec (.brp 0x1FD#9) { at' 0x3005#16 with cond := 0b001#3 })).pc = 0x3002#16 ∧
    (after (exec (.brp 0x1FD#9) (at' 0x3005#16))).pc = 0x3005#16 := by decide
/-- V4.7, V4.6: BRn wraps; BRz with the greatest offset. -/
theorem test_brn_brz : (after (exec (.brn 0x100#9) { at' 1#16 with cond := 0b100#3 })).pc = 0xFF01#16 ∧
    (after (exec (.brz 0xFF#9) s3001)).pc = 0x3100#16 := by decide
/-- R190, R103: the masks of two flags, with the flag that each leaves out. -/
theorem test_br_two_flags : (after (exec (.brnz 4#9) { s3001 with cond := 0b001#3 })).pc = 0x3001#16 ∧
    (after (exec (.brnp 4#9) s3001)).pc = 0x3001#16 ∧
    (after (exec (.brzp 4#9) { s3001 with cond := 0b100#3 })).pc = 0x3001#16 := by decide
/-- V4.4, V4.8. -/
theorem test_brnzp : (after (exec (.brnzp 4#9) { s3001 with cond := 0b000#3 })).pc = 0x3001#16 ∧
    (after (exec (.brnzp 0x1FF#9) s3001)).pc = 0x3000#16 := by decide
/-- V4.10, V4.11. -/
theorem test_jmp_ret : (after (exec (.jmp 0#3 2#3 0#6) (s3001.setReg 2#3 0x4000#16))).pc = 0x4000#16 ∧
    (after (exec (.ret 0#3 0#6) (s3001.setReg 7#3 0x3002#16))).pc = 0x3002#16 := by decide
/-- V4.14. -/
theorem test_jsr : let t := after (exec (.jsr 0x400#11) s3001)
    t.reg 7#3 = 0x3001#16 ∧ t.pc = 0x2C01#16 := by decide
/-- V4.17, V4.18. -/
theorem test_jsrr_r7 : let s := s3001.setReg 7#3 0x5000#16
    (after (exec (.jsrr 0#2 7#3 0#6) s)).pc = 0x3001#16 ∧ (after (exec (.jsrr 0#2 7#3 0#6) (baseFirst s))).pc = 0x5000#16 ∧
    (after (exec (.jsrr 0#2 7#3 0#6) (baseFirst s))).reg 7#3 = 0x3001#16 := by decide

/-! ## TRAP: V5 -/

/-- V5.1. -/
theorem test_getc : let t := after (exec (.getc 0#4) (typing [] [some 0x61#8] (s3001.setReg 0#3 0xFFFF#16)))
    t.reg 0#3 = 0x0061#16 ∧ t.cond = 0b010#3 ∧ t.out = [] := by decide
/-- V5.2. -/
theorem test_getc_timeout : (after (exec (.getc 0#4) (typing [] [none] (s3001.setReg 0#3 0xFFFF#16)))).reg 0#3 = 0#16 := by
  decide
/-- V5.3. -/
theorem test_out : (after (exec (.out 0#4) (s3001.setReg 0#3 0x1241#16))).out = [.char 0x41#8] := by decide
/-- E7. -/
theorem test_puts : (after (exec (.puts 0#4)
    (storing [(0x4000#16, 0x48#16), (0x4001#16, 0x69#16)] (s3001.setReg 0#3 0x4000#16)))).out =
      [.char 0x48#8, .char 0x69#8] := by decide
/-- V5.15. -/
theorem test_puts_wrap : let t := after (exec (.puts 0#4) (storing [(0xFFFF#16, 0x41#16)] (s3001.setReg 0#3 0xFFFF#16)))
    t.out = [.char 0x41#8] ∧
    t.run = .faulted { reason := .stringWrap, word := some 0xF022#16, addr := 0x3000#16 } := by decide
/-- V5.7, with a prompt of one byte. -/
theorem test_in : let s := typing [] [some 0x71#8] { s3001 with cfg := { s3001.cfg with inPrompt := [0x3F#8] } }
    (after (exec (.inp 0#4) s)).out = [.char 0x3F#8, .char 0x71#8] ∧ (after (exec (.inp 0#4) s)).reg 0#3 = 0x71#16 := by
  decide
/-- V5.9. -/
theorem test_putsp : (after (exec (.putsp 0#4)
    (storing [(0x4000#16, 0x6548#16), (0x4001#16, 0x006C#16)] (s3001.setReg 0#3 0x4000#16)))).out =
      [.char 0x48#8, .char 0x65#8, .char 0x6C#8] := by decide
/-- V5.11. -/
theorem test_halt : (after (exec (.halt 0#4) s3001)).run = .halted ∧ (after (exec (.halt 0#4) s3001)).out = [.flush] := by
  decide
/-- V5.13. -/
theorem test_trap_unknown : (after (exec (.trap 0#4 0x26#8) s3001)).run =
    .faulted { reason := .unknownTrap, word := some 0xF026#16, addr := 0x3000#16 } := by decide
/-- V5.18: a hooked scan polls at KBSR. -/
theorem test_puts_hooked :
    let t := after (exec (.puts 0#4) (hooked (typing [true] [some 0x5A#8] (s3001.setReg 0#3 0xFE00#16))))
    t.out = [.char 0x00#8] ∧ t.peek 0xFE02#16 = 0x005A#16 := by decide

/-! ## Reserved opcodes and the step: V6, V7, E9 -/

/-- V6.1, V6.4. -/
theorem test_rti : let t := after (step (storing [(0x3000#16, 0x8000#16)] State.reset))
    t.run = .faulted { reason := .reservedRti, word := some 0x8000#16, addr := 0x3000#16 } ∧ t.pc = 0x3001#16 ∧
    after (step t) = t ∧ t.isHalted = true := by decide
/-- V6.3. -/
theorem test_res : (after (step (storing [(0x4000#16, 0xDFFF#16)] (at' 0x4000#16)))).run =
    .faulted { reason := .reservedRes, word := some 0xDFFF#16, addr := 0x4000#16 } := by decide
/-- V7.1: PC wraps. -/
theorem test_step_wraps : let t := after (step (storing [(0xFFFF#16, 0x1021#16)] (at' 0xFFFF#16)))
    t.reg 0#3 = 1#16 ∧ t.pc = 0#16 := by decide
/-- V7.3: the fetch at KBSR polls, and the word executed is the one the poll leaves. -/
theorem test_step_at_kbsr : let t := after (step (typing [true] [some 0x41#8] sFE00))
    t.run = .faulted { reason := .reservedRti, word := some 0x8000#16, addr := 0xFE00#16 } ∧ t.pc = 0xFE01#16 ∧
    t.peek 0xFE02#16 = 0x0041#16 := by decide
/-- V7.4: a fault of the fetch read. -/
theorem test_fetch_fault : let t := after (step (typing [true] [none] sFE00))
    t.run = .faulted { reason := .adapterContract, word := none, addr := 0xFE00#16 } ∧ t.pc = 0xFE00#16 := by decide
/-- V3.17: a store is fetched by the next step. -/
theorem test_store_then_fetch :
    (after (step (after (step (storing [(0x3000#16, 0x3200#16)] ((at' 0x3000#16).setReg 1#3 0xF025#16)))))).run =
      .halted := by decide
/-- E9, R125: the word placed by the host runs, with result Continue. -/
theorem test_withFetchWord : let t := after (step (State.reset.withFetchWord 16 0x1220))
    t.pc = 0x3001#16 ∧ t.cond = 0b010#3 ∧ stepResult State.reset.run t.run = .continue := by decide
/-- R282: an image that ends at 0xFFFF is taken, one that passes it is refused, and so is a file of no words. -/
theorem test_new : (after (new NewParams.reference { origin := 0xFFFF#16, words := [7#16] })).peek 0xFFFF#16 = 7#16 ∧
    new NewParams.reference { origin := 0xFFFF#16, words := [7#16, 7#16] } = .refused .imageRefused ∧
    newOfFileWords NewParams.reference [] = .refused .noOriginWord := ⟨by decide, rfl, rfl⟩

/-! ## Witnesses: for each statement with hypotheses, a state and operands that meet them, for each clause -/

theorem witness_DecodeOfEncodeIsIdentity : (Instr.trap 0xF#4 0xFF#8).wf = true := by decide
theorem witness_EveryWordIsOneInstruction : (Instr.halt 0xF#4).wf = true ∧ encode (.halt 0xF#4) = 0xFF25#16 := by decide
theorem witness_SignExtensionKeepsTheValue :
    5 ∈ [5, 6, 9, 11] ∧ (0b10000#5).getLsbD (5 - 1) = true ∧ (0b01111#5).getLsbD (5 - 1) = false ∧
    6 ∈ [5, 6, 9, 11] ∧ (0b100000#6).getLsbD (6 - 1) = true ∧ (0b011111#6).getLsbD (6 - 1) = false ∧
    9 ∈ [5, 6, 9, 11] ∧ (0x100#9).getLsbD (9 - 1) = true ∧ (0x0FF#9).getLsbD (9 - 1) = false ∧
    11 ∈ [5, 6, 9, 11] ∧ (0x400#11).getLsbD (11 - 1) = true ∧ (0x3FF#11).getLsbD (11 - 1) = false := by decide
theorem witness_WriteStoresTheWord : 0xFDFF#16 ≠ State.reset.cfg.kbsrAddr ∧ 0xFE00#16 = State.reset.cfg.kbsrAddr := by decide
theorem witness_KbdrReadIsPlain : State.reset.cfg.wf := by decide
theorem witness_KbsrReadPolls_no_key : (typing [false] [] sFE00).keyAvailable.1 = false ∧
    (typing [false] [] sFE00).cfg.kbPollWrite = .wholeWord ∧
    (topBitOnly (typing [false] [] sFE00)).cfg.kbPollWrite = .topBitOnly := by decide
theorem witness_KbsrReadPolls_key : let s := typing [true] [some 0x41#8] sFE00
    s.cfg.wf ∧ s.keyAvailable.1 = true ∧ s.keyAvailable.2.readChar.1 = some 0x41#8 ∧ s.cfg.kbPollWrite = .wholeWord ∧
    (topBitOnly s).cfg.kbPollWrite = .topBitOnly := by decide
theorem witness_KbsrReadPolls_broken : let s := typing [true] [none] sFE00
    s.keyAvailable.1 = true ∧ s.keyAvailable.2.readChar.1 = none := by decide
theorem witness_AdapterAnswersInOrder : (typing [true] [none] sFE00).adapter.keyAnswers = true :: [] ∧
    (typing [true] [none] sFE00).adapter.charAnswers = none :: [] := by decide
theorem witness_OnlyAKbsrReadCanFail :
    ∃ u, (typing [true] [none] sFE00).memRead 0xFE00#16 = .fail .adapterContract u := ⟨_, rfl⟩
theorem witness_SameWordsAreTheSameMemory : Memory.wf [(0, 1#16), (65535, 1#16)] := by decide
theorem witness_StepRunsTheDecodedInstruction : let s := storing [(0x3000#16, 0xF025#16)] (at' 0x3000#16)
    s.run = .running ∧ s.pc ≠ s.cfg.kbsrAddr ∧ (Instr.halt 0#4).wf = true ∧ s.peek s.pc = encode (.halt 0#4) := by decide
theorem witness_StepRunsTheDecodedInstruction_at_kbsr : (∃ w u, (typing [false] [] sFE00).memRead sFE00.pc = .ok w u) ∧
    ∃ r u, (typing [true] [none] sFE00).memRead sFE00.pc = .fail r u := ⟨⟨_, _, rfl⟩, ⟨_, _, rfl⟩⟩
theorem witness_TerminalStatesStay : { State.reset with run := .halted }.run ≠ .running ∧
    ({ State.reset with run := .faulted { reason := .reservedRti, word := none, addr := 0#16 } } : State).run ≠ .running ∧
    State.reset.run = .running := by decide
theorem witness_StepKeepsTheInvariant : Memory.wf State.reset.mem ∧ State.reset.cfg.wf ∧
    ∃ t, step State.reset = .next t := ⟨by decide, by decide, _, rfl⟩
theorem witness_FlagsStayOneHot : flagDestination (.lea 0#3 0#9) = some 0#3 ∧ s3001.run = .running ∧
    (after (exec (.lea 0#3 0#9) s3001)).run = .running ∧ OneHot s3001.cond ∧ ∃ t, step s3001 = .next t :=
  ⟨rfl, rfl, rfl, .inr (.inl rfl), _, rfl⟩
theorem witness_OnlyControlTransferWritesPc : (after (exec (.jsr 1#11) s3001)).pc ≠ s3001.pc ∧
    (∃ record, (after (step (storing [(0x3000#16, 0x8000#16)] State.reset))).run = .faulted record ∧ record.word ≠ none) ∧
    ∃ record, (after (step (typing [true] [none] sFE00))).run = .faulted record ∧ record.word = none :=
  ⟨by decide, ⟨_, test_rti.1, by decide⟩, ⟨_, test_fetch_fault.1, rfl⟩⟩
theorem witness_OnlySevenOpcodesWriteFlags : flagDestination (.getc 0#4) = none ∧
    flagDestination (.ld 0#3 0#9) = some 0#3 ∧ (after (exec (.ld 0#3 0#9) s3001)).run = .running ∧
    (after (exec (.ld 0#3 0#9) (typing [true] [none] sFE00))).run ≠ .running := by decide
theorem witness_RegistersWrittenAreTheTables :
    (after (exec (.getc 0#4) (typing [] [some 0x61#8] s3001))).reg 0#3 ≠ s3001.reg 0#3 := by decide
theorem witness_OnlyStoresAndPollsWriteMemory :
    (after (exec (.st 0#3 5#9) (s3001.setReg 0#3 1#16))).peek 0x3006#16 ≠ s3001.peek 0x3006#16 ∧
    (after (exec (.ld 0#3 0#9) (typing [true] [some 1#8] sFE00))).peek 0xFE00#16 ≠ sFE00.peek 0xFE00#16 := by decide
theorem witness_StoreIsFetchedByTheNextStep : let s := storing [(0x3000#16, 0x3200#16)] (at' 0x3000#16)
    s.run = .running ∧ s.pc ≠ s.cfg.kbsrAddr ∧ s.pc + 1#16 ≠ s.cfg.kbsrAddr ∧ s.peek s.pc = encode (.st 1#3 0#9) := by decide
theorem witness_OnlyTrapHaltReachesHalted : let s := storing [(0x3000#16, 0xF025#16)] (at' 0x3000#16)
    s.run = .running ∧ (after (step s)).run = .halted := by decide
theorem witness_FaultRecordNamesTheStep : let s := storing [(0x4000#16, 0xDFFF#16)] (at' 0x4000#16)
    s.run = .running ∧ ∃ record, (after (step s)).run = .faulted record := ⟨by decide, _, test_res⟩
theorem witness_FaultsLeaveRegistersFlagsMemory : (typing [true] [none] sFE00).run = .running ∧
    (∃ record, (after (step (typing [true] [none] sFE00))).run = .faulted record) ∧
    0xFDFF#16 ≠ sFE00.cfg.kbsrAddr ∧ 0xFDFF#16 ≠ sFE00.cfg.kbdrAddr :=
  ⟨rfl, ⟨_, test_fetch_fault.1⟩, by decide, by decide⟩
theorem witness_ParametersNeverChange : ∃ t, step State.reset = .next t := ⟨_, rfl⟩
theorem witness_OutputOnlyGrows : ∃ t, step (storing [(0x3000#16, 0xF025#16)] State.reset) = .next t := ⟨_, rfl⟩
theorem witness_LdLoadsPcRelative : s3001.pc + sext 2#9 ≠ s3001.cfg.kbsrAddr ∧
    (∃ v u, (typing [false] [] sFE00).memRead (sFE00.pc + sext 0#9) = .ok v u) ∧
    ∃ r u, (typing [true] [none] sFE00).memRead (sFE00.pc + sext 0#9) = .fail r u :=
  ⟨by decide, ⟨_, _, rfl⟩, ⟨_, _, rfl⟩⟩
theorem witness_LdiLoadsThroughAPointer :
    (s3001.pc + sext 1#9 ≠ s3001.cfg.kbsrAddr ∧ s3001.peek (s3001.pc + sext 1#9) ≠ s3001.cfg.kbsrAddr) ∧
    (∃ a u v u', (typing [true] [some 1#8] (storing [(0x3002#16, 0xFE00#16)] s3001)).memRead (s3001.pc + sext 1#9) = .ok a u ∧
      u.memRead a = .ok v u') ∧
    (∃ r u, (typing [true] [none] sFE00).memRead (sFE00.pc + sext 0#9) = .fail r u) ∧
    ∃ a u r u', (typing [true] [none] (storing [(0x3002#16, 0xFE00#16)] s3001)).memRead (s3001.pc + sext 1#9) = .ok a u ∧
      u.memRead a = .fail r u' :=
  ⟨by decide, ⟨_, _, _, _, rfl, rfl⟩, ⟨_, _, rfl⟩, ⟨_, _, _, _, rfl, rfl⟩⟩
theorem witness_LdrLoadsFromBaseAndOffset : s3001.reg 1#3 + sext 0x20#6 ≠ s3001.cfg.kbsrAddr ∧
    (∃ v u, (typing [false] [] (s3001.setReg 1#3 0xFE00#16)).memRead
      ((s3001.setReg 1#3 0xFE00#16).reg 1#3 + sext 0#6) = .ok v u) ∧
    ∃ r u, (typing [true] [none] (s3001.setReg 1#3 0xFE00#16)).memRead
      ((s3001.setReg 1#3 0xFE00#16).reg 1#3 + sext 0#6) = .fail r u :=
  ⟨by decide, ⟨_, _, rfl⟩, ⟨_, _, rfl⟩⟩
theorem witness_StiStoresThroughAPointer : s3001.pc + sext 3#9 ≠ s3001.cfg.kbsrAddr ∧
    (∃ a u, (typing [true] [some 1#8] sFE00).memRead (sFE00.pc + sext 0#9) = .ok a u) ∧
    ∃ r u, (typing [true] [none] sFE00).memRead (sFE00.pc + sext 0#9) = .fail r u :=
  ⟨by decide, ⟨_, _, rfl⟩, ⟨_, _, rfl⟩⟩
theorem witness_BrBranchesOnTheMaskedFlags : (0b010#3 &&& s3001.cond ≠ 0#3) ∧ ¬(0b101#3 &&& s3001.cond ≠ 0#3) := by decide
theorem witness_JmpAndRetGoToTheBase : (6#3 : RegIdx) ≠ 7#3 := by decide
theorem witness_JsrrLinksAndGoesToTheBase : (6#3 : RegIdx) ≠ 7#3 ∧ s3001.cfg.jsrrOrder = .linkFirst ∧
    (baseFirst s3001).cfg.jsrrOrder = .baseFirst := by decide
theorem witness_TrapRunsTheServiceOfItsVector :
    0x1F#8 ∉ [0x20#8, 0x21#8, 0x22#8, 0x23#8, 0x24#8, 0x25#8] ∧
    0x26#8 ∉ [0x20#8, 0x21#8, 0x22#8, 0x23#8, 0x24#8, 0x25#8] := by decide
theorem witness_GetcReadsACharacterIntoR0 : (typing [] [some 0xFF#8] s3001).readChar.1 = some 0xFF#8 ∧
    (typing [] [none] s3001).readChar.1 = none := by decide
theorem witness_InPromptsReadsAndEchoes : (typing [] [some 0x00#8] s3001).readChar.1 = some 0x00#8 ∧
    (typing [] [none] s3001).readChar.1 = none := by decide
theorem witness_PutsIsTheLoopOfTheSpec : s3001.cfg.trapStringRead = .plain ∧ (hooked s3001).cfg.trapStringRead = .hooked ∧
    s3001.strRead 0xFFFF#16 = .ok 0#16 s3001 ∧
    (∃ u, (storing [(0xFFFE#16, 1#16)] s3001).strRead 0xFFFE#16 = .ok 1#16 u ∧ 0xFFFE#16 ≠ 0xFFFF#16) ∧
    (∃ u, (storing [(0xFFFF#16, 1#16)] s3001).strRead 0xFFFF#16 = .ok 1#16 u) ∧
    ∃ r u, (hooked (typing [true] [none] s3001)).strRead 0xFE00#16 = .fail r u :=
  ⟨rfl, rfl, by decide, ⟨_, rfl, by decide⟩, ⟨_, rfl⟩, ⟨_, _, rfl⟩⟩
theorem witness_PutspIsTheLoopOfTheSpec : (0x006C#16).extractLsb' 8 8 = 0x00#8 ∧ (0x6548#16).extractLsb' 8 8 ≠ 0x00#8 ∧
    s3001.strRead 0xFFFF#16 = .ok 0#16 s3001 ∧
    (∃ u, (storing [(0xFFFE#16, 1#16)] s3001).strRead 0xFFFE#16 = .ok 1#16 u ∧ 0xFFFE#16 ≠ 0xFFFF#16) ∧
    (∃ u, (storing [(0xFFFF#16, 1#16)] s3001).strRead 0xFFFF#16 = .ok 1#16 u) ∧
    ∃ r u, (hooked (typing [true] [none] s3001)).strRead 0xFE00#16 = .fail r u :=
  ⟨by decide, by decide, by decide, ⟨_, rfl, by decide⟩, ⟨_, rfl⟩, ⟨_, _, rfl⟩⟩

/-- A string that ends at 0xFFFF, the last word a terminator may have. -/
def stringToTheTop : State := hooked (storing [(0xFFFE#16, 0x4241#16)] (s3001.setReg 0#3 0xFFFE#16))

/-- A string with no terminator, of the one word at 0xFFFF. -/
def stringPastTheTop : State := hooked (storing [(0xFFFF#16, 0x4241#16)] (s3001.setReg 0#3 0xFFFF#16))

theorem witness_PutsWritesTheString_ends : (∀ v ∈ [0x4241#16], v ≠ 0x0000#16) ∧
    (∀ k (h : k < [0x4241#16].length),
      stringToTheTop.peek (stringToTheTop.reg 0#3 + BitVec.ofNat 16 k) = [0x4241#16][k]) ∧
    (∀ k, k ≤ 1 → stringToTheTop.reg 0#3 + BitVec.ofNat 16 k ≠ stringToTheTop.cfg.kbsrAddr) ∧
    (stringToTheTop.reg 0#3).toNat + 1 < 65536 ∧
    stringToTheTop.peek (stringToTheTop.reg 0#3 + BitVec.ofNat 16 1) = 0x0000#16 := by
  refine ⟨by simp, fun k h => ?_, fun k h => ?_, ?_, by decide⟩
  · obtain rfl : k = 0 := by simpa using h
    rfl
  · obtain rfl | rfl : k = 0 ∨ k = 1 := by omega
    · decide
    · decide
  · show (0xFFFE#16).toNat + 1 < 65536
    simp
theorem witness_PutsWritesTheString_wraps : (∀ v ∈ [0x4241#16], v ≠ 0x0000#16) ∧
    (∀ k (h : k < [0x4241#16].length),
      stringPastTheTop.peek (stringPastTheTop.reg 0#3 + BitVec.ofNat 16 k) = [0x4241#16][k]) ∧
    (∀ k, k ≤ 1 → (stringPastTheTop.reg 0#3).toNat + k < 65536 →
      stringPastTheTop.reg 0#3 + BitVec.ofNat 16 k ≠ stringPastTheTop.cfg.kbsrAddr) ∧
    (stringPastTheTop.reg 0#3).toNat + 1 = 65536 := by
  have e : stringPastTheTop.reg 0#3 = 0xFFFF#16 := by decide
  refine ⟨by simp, fun k h => ?_, fun k h hk => ?_, by rw [e]; rfl⟩
  · obtain rfl : k = 0 := by simpa using h
    rfl
  · rw [e] at hk ⊢
    obtain rfl : k = 0 := by
      have : (0xFFFF#16).toNat = 65535 := rfl
      omega
    decide
/-- The hypotheses of PutspWritesTheString are those of PutsWritesTheString, with the reads plain. -/
theorem witness_PutspWritesTheString : s3001.cfg.trapStringRead = .plain ∧
    (s3001.reg 0#3).toNat + ([] : List Word).length < 65536 ∧
    s3001.peek (s3001.reg 0#3 + BitVec.ofNat 16 ([] : List Word).length) = 0x0000#16 := by decide
theorem witness_HaltFlushesAndHalts : s3001.run = .running := rfl
theorem witness_NewBuildsTheMachine : (0xFFFF#16).toNat + [7#16].length ≤ 65536 ∧
    65536 < (0xFFFF#16).toNat + [7#16, 7#16].length ∧ NewParams.reference.cfg.wf ∧ Memory.wf NewParams.reference.initMem := by
  decide

end Sys2Proof.Tests
end

section
/-! PROOF. What every operation of the machine keeps: the parameters, the output so far and the canonical form of memory
(spec/00_scope.md R6, spec/20_memory.md R50, R72). -/

namespace Sys2Proof.Machine

variable {s t u : State}

/-- What holds between the states before and after any operation of the machine: the parameters stay, output is only
added, and canonical memory stays canonical. -/
structure Evolves (s t : State) : Prop where
  cfg : t.cfg = s.cfg
  out : ∃ events, t.out = s.out ++ events
  wf : Memory.wf s.mem → Memory.wf t.mem

theorem Evolves.trans (h : Evolves s t) (h' : Evolves t u) : Evolves s u where
  cfg := h'.cfg.trans h.cfg
  out := by
    obtain ⟨es, hs⟩ := h.out
    obtain ⟨es', hs'⟩ := h'.out
    exact ⟨es ++ es', by rw [hs', hs, List.append_assoc]⟩
  wf hm := h'.wf (h.wf hm)

/-- An operation that touches neither parameters, output nor memory. -/
theorem Evolves.of_same (hcfg : t.cfg = s.cfg) (hout : t.out = s.out) (hmem : t.mem = s.mem) : Evolves s t :=
  ⟨hcfg, ⟨[], by simp [hout]⟩, fun h => hmem ▸ h⟩

theorem Evolves.refl (s : State) : Evolves s s := .of_same rfl rfl rfl

theorem Emitted.evolves (h : Emitted s t) : Evolves s t := ⟨h.cfg, h.out, h.wf⟩

theorem Polled.evolves (h : Polled s t) : Evolves s t := h.emitted.evolves

/-! ## The shared operations -/

theorem setReg_evolves (s : State) (r : RegIdx) (v : Word) : Evolves s (s.setReg r v) := .of_same rfl rfl rfl

theorem setPc_evolves (s : State) (target : Word) : Evolves s (s.setPc target) := .of_same rfl rfl rfl

theorem writeDR_evolves (s : State) (dr : RegIdx) (v : Word) : Evolves s (s.writeDR dr v) := .of_same rfl rfl rfl

theorem memWrite_evolves (s : State) (a v : Word) : Evolves s (s.memWrite a v) :=
  ⟨rfl, ⟨[], by simp⟩, memWrite_wf s a v⟩

theorem writeChars_evolves (s : State) (bs : List Byte) : Evolves s (s.writeChars bs) := ⟨rfl, ⟨_, rfl⟩, id⟩

theorem takeFault_evolves (s : State) (reason : FaultReason) (word : Option Word) (addr : Word) :
    Evolves s (s.takeFault reason word addr) := .of_same rfl rfl rfl

theorem branch_evolves (s : State) (mask : BitVec 3) (off : BitVec 9) : Evolves s (s.branch mask off) := by
  obtain ⟨-, e⟩ | ⟨-, e⟩ := branch_cases s mask off
  · rw [e]
    exact setPc_evolves s _
  · rw [e]
    exact .refl s

theorem readThen_evolves (s : State) (i : Instr) (a : Word) {k : Word → State → State}
    (hk : ∀ v u, Evolves u (k v u)) : Evolves s (s.readThen i a k) := by
  obtain ⟨v, u, hread, e⟩ | ⟨r, u, hread, e⟩ := readThen_cases s i a k
  · exact e ▸ (memRead_ok hread).2.evolves.trans (hk v u)
  · obtain ⟨-, -, -, hu⟩ := memRead_fail hread
    exact e ▸ hu.evolves.trans (takeFault_evolves u _ _ _)

/-! ## The trap services -/

theorem trapGetc_evolves (s : State) : Evolves s s.trapGetc :=
  (readChar_polled s).evolves.trans (setReg_evolves _ _ _)

theorem trapOut_evolves (s : State) : Evolves s s.trapOut := (writeChar_emitted s _).evolves

theorem trapIn_evolves (s : State) : Evolves s s.trapIn := by
  have hread : Evolves s (s.writeChars s.cfg.inPrompt).readChar.2 :=
    (writeChars_evolves s _).trans (readChar_polled _).evolves
  cases hc : (s.writeChars s.cfg.inPrompt).readChar.1 with
  | some c =>
    simp only [State.trapIn, hc]
    exact hread.trans ((writeChar_emitted _ _).evolves.trans (setReg_evolves _ _ _))
  | none =>
    simp only [State.trapIn, hc]
    exact hread.trans (setReg_evolves _ _ _)

theorem trapHalt_evolves (s : State) : Evolves s s.trapHalt := ⟨rfl, ⟨_, rfl⟩, id⟩

theorem trapUnknown_evolves (s : State) (i : Instr) : Evolves s (s.trapUnknown i) := takeFault_evolves s _ _ _

/-! ## Instructions and steps -/

/-- JSRR answers a next state in either order of its two writes. -/
theorem execJsrr_next (base : RegIdx) (s : State) : ∃ t, execJsrr base s = .next t ∧ Evolves s t := by
  unfold execJsrr
  split <;> exact ⟨_, rfl, (setReg_evolves s _ _).trans (setPc_evolves _ _)⟩

/-- TRAP answers a next state, by the service of its vector. -/
theorem execTrap_next (ign : BitVec 4) (vect : BitVec 8) (s : State) :
    ∃ t, execTrap ign vect s = .next t ∧ Evolves s t := by
  unfold execTrap
  cases trapService vect with
  | getc => exact ⟨_, rfl, trapGetc_evolves s⟩
  | out => exact ⟨_, rfl, trapOut_evolves s⟩
  | puts => exact ⟨_, rfl, (trapPuts_emitted s _).evolves⟩
  | inp => exact ⟨_, rfl, trapIn_evolves s⟩
  | putsp => exact ⟨_, rfl, (trapPutsp_emitted s _).evolves⟩
  | halt => exact ⟨_, rfl, trapHalt_evolves s⟩
  | unknown => exact ⟨_, rfl, trapUnknown_evolves s _⟩

/-- Every instruction answers a next state, which evolves from the one before. -/
theorem exec_next (i : Instr) (s : State) : ∃ t, exec i s = .next t ∧ Evolves s t := by
  cases i with
  | br | brn | brz | brp | brnz | brnp | brzp | brnzp => exact ⟨_, rfl, branch_evolves s _ _⟩
  | addReg | addImm | andReg | andImm | notReg | lea => exact ⟨_, rfl, writeDR_evolves s _ _⟩
  | ld | ldr => exact ⟨_, rfl, readThen_evolves s _ _ fun _ u => writeDR_evolves u _ _⟩
  | ldi =>
    exact ⟨_, rfl, readThen_evolves s _ _ fun _ u => readThen_evolves u _ _ fun _ u' => writeDR_evolves u' _ _⟩
  | st | str => exact ⟨_, rfl, memWrite_evolves s _ _⟩
  | sti => exact ⟨_, rfl, readThen_evolves s _ _ fun _ u => memWrite_evolves u _ _⟩
  | jsr => exact ⟨_, rfl, (setReg_evolves s _ _).trans (setPc_evolves _ _)⟩
  | jsrr _ base _ => exact execJsrr_next base s
  | jmp | ret => exact ⟨_, rfl, setPc_evolves s _⟩
  | rti | res => exact ⟨_, rfl, takeFault_evolves s _ _ _⟩
  | trap ign vect => exact execTrap_next ign vect s
  | getc => exact ⟨_, rfl, trapGetc_evolves s⟩
  | out => exact ⟨_, rfl, trapOut_evolves s⟩
  | puts => exact ⟨_, rfl, (trapPuts_emitted s _).evolves⟩
  | inp => exact ⟨_, rfl, trapIn_evolves s⟩
  | putsp => exact ⟨_, rfl, (trapPutsp_emitted s _).evolves⟩
  | halt => exact ⟨_, rfl, trapHalt_evolves s⟩

/-- What a step can do: nothing in a terminal state, execute the word the fetch read, or take the fetch's fault. -/
theorem step_cases (s : State) :
    (s.run ≠ .running ∧ step s = .next s) ∨
    (∃ w u, s.run = .running ∧ s.memRead s.pc = .ok w u ∧ step s = exec (decode w) (u.setPc (s.pc + 1#16))) ∨
    (∃ r u, s.run = .running ∧ s.memRead s.pc = .fail r u ∧ step s = .next (u.faultInFetch r)) := by
  unfold step
  cases hrun : s.run with
  | running =>
    obtain ⟨w, u, hread, hfetch⟩ | ⟨r, u, hread, hfetch⟩ := fetch_cases s
    · exact .inr (.inl ⟨w, u, rfl, hread, by simp [hfetch]⟩)
    · exact .inr (.inr ⟨r, u, rfl, hread, by simp [hfetch]⟩)
  | halted => exact .inl ⟨nofun, rfl⟩
  | faulted record => exact .inl ⟨nofun, rfl⟩

/-- Every step answers a next state, which evolves from the one before. -/
theorem step_next (s : State) : ∃ t, step s = .next t ∧ Evolves s t := by
  obtain ⟨-, e⟩ | ⟨w, u, -, hread, e⟩ | ⟨r, u, -, hread, e⟩ := step_cases s
  · exact ⟨s, e, .refl s⟩
  · obtain ⟨t, hexec, ht⟩ := exec_next (decode w) (u.setPc (s.pc + 1#16))
    exact ⟨t, e.trans hexec, (memRead_ok hread).2.evolves.trans ((setPc_evolves u _).trans ht)⟩
  · obtain ⟨-, -, -, hu⟩ := memRead_fail hread
    exact ⟨_, e, hu.evolves.trans (takeFault_evolves u _ _ _)⟩

theorem step_evolves (h : step s = .next t) : Evolves s t := by
  obtain ⟨u, hu, hevolves⟩ := step_next s
  obtain rfl := Host.Outcome.next.inj (hu.symm.trans h)
  exact hevolves

/-- Settles O29: a step evolves the state, by one case for each instruction and each fault of the fetch. -/
theorem parametersNeverChange : Obligations.ParametersNeverChange := fun _ _ h => (step_evolves h).cfg

end Sys2Proof.Machine
end

section
/-! PROOF. Sign extension (spec/00_scope.md R9) is the library's `signExtend`, at every width. -/

namespace Sys2Proof.Machine

theorem sext_of_msb_true {k : Nat} {f : BitVec k} (h : f.msb = true) :
    sext f = f.setWidth 16 ||| (0xFFFF#16 <<< k) := by simp [sext, h]

theorem sext_of_msb_false {k : Nat} {f : BitVec k} (h : f.msb = false) : sext f = f.setWidth 16 := by simp [sext, h]

/-- `0xFFFF << k` sets the bits from k on: above the field the sign bit, inside it the field's own bits. -/
theorem sext_eq_signExtend {k : Nat} (f : BitVec k) : sext f = f.signExtend 16 := by
  cases hmsb : f.msb with
  | false => rw [sext_of_msb_false hmsb, BitVec.signExtend_eq_setWidth_of_msb_false hmsb]
  | true =>
    rw [sext_of_msb_true hmsb]
    have hones (i : Nat) (hi : i < 16) : (0xFFFF#16)[i] = true := BitVec.getElem_allOnes i hi
    ext j hj
    by_cases hjk : j < k
    · simp [BitVec.getElem_signExtend, hjk]
    · simp [BitVec.getElem_signExtend, hones, hmsb, hjk]

theorem toInt_sext {k : Nat} (f : BitVec k) (hk : k ≤ 16) : (sext f).toInt = f.toInt := by
  rw [sext_eq_signExtend, BitVec.toInt_signExtend_of_le hk]

/-- Settles O6: the top bit of the field is its sign bit, and `signExtend` keeps the value. -/
theorem signExtensionKeepsTheValue : Obligations.SignExtensionKeepsTheValue := by
  refine ⟨fun k f _ h => sext_of_msb_true ?_, fun k f _ h => sext_of_msb_false ?_, fun k f hk => toInt_sext f ?_⟩
  · rw [BitVec.msb_eq_getLsbD_last, h]
  · rw [BitVec.msb_eq_getLsbD_last, h]
  · simp only [List.mem_cons, List.not_mem_nil, or_false] at hk
    omega

end Sys2Proof.Machine
end

section
/-! PROOF. The state after reset (spec/70_reset_and_hazards.md R281). -/

namespace Sys2Proof.Machine

/-- The reference addresses of D3, 0xFE00 and 0xFE02, are distinct. -/
theorem reference_wf : Config.reference.wf := by decide

/-- Settles O19: memory is empty at reset, and the parameters are the reference values. -/
theorem resetHasTheInvariant : Obligations.ResetHasTheInvariant := ⟨Memory.wf_nil, reference_wf⟩

end Sys2Proof.Machine
end

section
/-! PROOF. The encoder undoes the decoder (spec/30_encoding.md R83): the fields that the decoder cuts from a word are, put
together again, the word. -/

namespace Sys2Proof

/-! ## Fields of a word -/

theorem field_whole (w : Word) : field w 0 16 = w := BitVec.extractLsb'_eq_self

/-- Neighbouring fields are one field. -/
theorem field_append_field (w : Word) {hi lo len len' : Nat} (h : hi = lo + len) :
    field w hi len' ++ field w lo len = field w lo (len' + len) :=
  BitVec.extractLsb'_append_extractLsb'_eq_extractLsb' h

/-- A field of one bit. -/
theorem field_one {w : Word} {k : Nat} {b : Bool} (h : w.getLsbD k = b) : field w k 1 = BitVec.ofBool b := by
  ext j hj
  obtain rfl : j = 0 := by omega
  simp [field, h]

/-! ## The rows of R103 -/

theorem Opcode.value_ofBits (b : BitVec 4) : (Opcode.ofBits b).value = b := by decide +revert

theorem encode_brOfMask (mask : BitVec 3) (off : BitVec 9) : encode (brOfMask mask off) = brWord mask off := by
  obtain ⟨m⟩ := mask
  fin_cases m <;> rfl

theorem encode_jmpOfBase (ign : BitVec 3) (base : RegIdx) (ign' : BitVec 6) :
    encode (jmpOfBase ign base ign') = jmpWord ign base ign' := by
  unfold jmpOfBase
  split
  next h => rw [h]; rfl
  next => rfl

theorem encode_trapOfVector (ign : BitVec 4) (vect : BitVec 8) :
    encode (trapOfVector ign vect) = trapWord ign vect := by
  fun_cases trapOfVector ign vect <;> simp_all [encode]

/-! ## Words -/

theorem value_opcodeOf (w : Word) : (opcodeOf w).value = field w 12 4 := Opcode.value_ofBits _

/-- The encoder puts the opcode of R82 and the fields of the word's format (R85 to R95) side by side. -/
theorem encode_decode (w : Word) : encode (decode w) = w := by
  refine Eq.trans ?_ (field_whole w)
  have hop := value_opcodeOf w
  unfold decode
  cases ho : opcodeOf w <;> simp only [ho, Opcode.value] at hop
  case br => simp only [encode_brOfMask, brWord, hop, field_append_field]
  case jmp => simp only [encode_jmpOfBase, jmpWord, hop, field_append_field]
  case trap => simp only [encode_trapOfVector, trapWord, hop, field_append_field]
  case add | and =>
    cases hbit : w.getLsbD 5 with
    | false =>
      have hone : 0b0#1 = field w 5 1 := (field_one hbit).symm
      simp only [Bool.false_eq_true, if_false, encode, hop, hone, field_append_field]
    | true =>
      have hone : 0b1#1 = field w 5 1 := (field_one hbit).symm
      simp only [if_true, encode, hop, hone, field_append_field]
  case jsr =>
    cases hbit : w.getLsbD 11 with
    | false =>
      have hone : 0b0#1 = field w 11 1 := (field_one hbit).symm
      simp only [Bool.false_eq_true, if_false, encode, hop, hone, field_append_field]
    | true =>
      have hone : 0b1#1 = field w 11 1 := (field_one hbit).symm
      simp only [if_true, encode, hop, hone, field_append_field]
  case ld | st | ldr | str | rti | not | ldi | sti | res | lea => simp only [encode, hop, field_append_field]

end Sys2Proof
end

section
/-! PROOF. The flags of a value and the write of a register (spec/10_state.md R21, R29). -/

namespace Sys2Proof.Machine

theorem flagsOf_nzp (v : Word) : FlagsOf v (nzp v) := by
  refine ⟨fun hzero => if_pos hzero, fun hneg => ?_, fun hne hpos => ?_⟩
  · have hne : v ≠ 0x0000#16 := by
      rintro rfl
      simp at hneg
    exact (if_neg hne).trans (if_pos hneg)
  · exact (if_neg hne).trans (if_neg (ne_true_of_eq_false hpos))

theorem oneHot_nzp (v : Word) : OneHot (nzp v) := by
  unfold nzp
  split
  · exact .inr (.inl rfl)
  · split
    · exact .inl rfl
    · exact .inr (.inr rfl)

/-- Settles O7: COND becomes the flags of the value, and `setcc` updates no other field. -/
theorem setccSetsExactlyOneFlag : Obligations.SetccSetsExactlyOneFlag := fun v _ =>
  ⟨flagsOf_nzp v, oneHot_nzp v, rfl, fun _ => rfl, fun _ => rfl, rfl, rfl, rfl, rfl⟩

/-- Settles O8: by the read after a write of a register; `setReg` updates no other field. -/
theorem registerReadsBack : Obligations.RegisterReadsBack := fun r v s =>
  ⟨reg_setReg_self s r v, fun _ hne => reg_setReg_ne s v hne, rfl, rfl, fun _ => rfl, rfl, rfl, rfl, rfl⟩

end Sys2Proof.Machine
end

section
/-! PROOF. What executing an instruction can do to the state, said once (spec/40_fetch_execute.md R124): the table of the
registers, PC, flags and run state that each instruction writes is read off from it. -/

namespace Sys2Proof.Machine

variable {i : Instr}

/-! ## The rows of the tables -/

/-- R30: the flag-setting instructions are those of seven opcodes. -/
theorem flagDestination_ne_none_iff (i : Instr) :
    flagDestination i ≠ none ↔ i.opcode ∈ [Opcode.add, .and, .not, .ld, .ldi, .ldr, .lea] := by
  cases i <;> simp [flagDestination, Instr.opcode]

theorem flagDestination_eq_none (h : i.opcode ∉ [Opcode.add, .and, .not, .ld, .ldi, .ldr, .lea]) :
    flagDestination i = none := not_not.1 fun hne => h ((flagDestination_ne_none_iff i).1 hne)

/-- R22: a flag-setting instruction writes its DR. -/
theorem registerWritten_of_flagDestination {dr : RegIdx} (h : flagDestination i = some dr) :
    registerWritten i = some dr := by
  cases i <;> simp_all [flagDestination, registerWritten]

/-! ## The effect of an instruction -/

/-- The states that executing an instruction can end in, by what the instruction writes. -/
inductive Executed (i : Instr) (s : State) : State → Prop
  /-- Output and polls, and no more: the string services, OUT, and a branch that is not taken. -/
  | emits {t : State} (hdest : flagDestination i = none) (h : Emitted s t) (hrun : t.run = s.run) : Executed i s t
  /-- The seven flag-setting opcodes. -/
  | defines {u : State} (dr : RegIdx) (v : Word) (hdest : flagDestination i = some dr) (h : Polled s u) :
    Executed i s (u.writeDR dr v)
  /-- ST, STI and STR. -/
  | stores {u : State} (a v : Word) (hop : i.opcode = .st ∨ i.opcode = .sti ∨ i.opcode = .str) (h : Polled s u) :
    Executed i s (u.memWrite a v)
  /-- GETC and IN. -/
  | receives {u : State} (v : Word) (hop : i.opcode = .trap) (hreg : registerWritten i = some 0#3) (h : Emitted s u)
    (hrun : u.run = s.run) : Executed i s (u.setReg 0#3 v)
  /-- A taken branch, and JMP. -/
  | jumps (target : Word) (hop : i.opcode = .br ∨ i.opcode = .jmp) : Executed i s (s.setPc target)
  /-- JSR and JSRR. -/
  | calls (target : Word) (hop : i.opcode = .jsr) (hreg : registerWritten i = some linkReg) :
    Executed i s ((s.setReg linkReg s.pc).setPc target)
  /-- HALT. -/
  | halts (ign : BitVec 4) (hword : encode i = trapWord ign 0x25#8) : Executed i s s.trapHalt
  /-- A fault in execute, with the record of R34. -/
  | faults {u : State} (r : FaultReason) (h : Emitted s u) (hrun : u.run = s.run) : Executed i s (u.faultIn i r)

variable {s t : State}

theorem branch_executed (s : State) (mask : BitVec 3) (off : BitVec 9) (hop : i.opcode = .br) :
    Executed i s (s.branch mask off) := by
  obtain ⟨-, e⟩ | ⟨-, e⟩ := branch_cases s mask off
  · rw [e]
    exact .jumps _ (.inl hop)
  · rw [e]
    exact .emits (flagDestination_eq_none (by simp [hop])) (Polled.refl s).emitted rfl

/-- A read after polls goes on after more polls, or is the instruction's fault. -/
theorem readThen_executed {a : Word} {k : Word → State → State} (h : Polled s t)
    (hk : ∀ v u, Polled s u → Executed i s (k v u)) : Executed i s (t.readThen i a k) := by
  obtain ⟨v, u, hread, e⟩ | ⟨r, u, hread, e⟩ := readThen_cases t i a k
  · exact e ▸ hk v u (h.trans (memRead_ok hread).2)
  · obtain ⟨-, -, -, hu⟩ := memRead_fail hread
    exact e ▸ .faults r (h.trans hu).emitted (h.trans hu).run

/-- JSRR links and jumps, in either order of its base read and its link write. -/
theorem execJsrr_executed (base : RegIdx) (s : State) (hop : i.opcode = .jsr) (hreg : registerWritten i = some linkReg) :
    ∃ t, execJsrr base s = .next t ∧ Executed i s t := by
  unfold execJsrr
  split <;> exact ⟨_, rfl, .calls _ hop hreg⟩

/-! ## The trap services -/

theorem emitLow_run (v : Word) (s : State) : (emitLow v s).run = s.run := rfl

theorem emitPacked_run (v : Word) (s : State) : (emitPacked v s).run = s.run := by
  unfold emitPacked
  split <;> rfl

/-- A scan ends at a zero word, in the fault of a read, or in STRING_WRAP. -/
theorem scan_executed {emit : Word → State → State} (hemit : ∀ v u, Emitted u (emit v u) ∧ (emit v u).run = u.run)
    (hop : i.opcode = .trap) (above : Nat) (a : Word) (h : Emitted s t) (hrun : t.run = s.run) :
    Executed i s (scan i emit above a t) := by
  fun_induction scan i emit above a t with
  | case1 above a t r u hread =>
    obtain ⟨-, -, -, hu⟩ := strRead_fail hread
    exact .faults r (h.trans hu.emitted) (hu.run.trans hrun)
  | case2 above a t u hread =>
    have hu := (strRead_ok hread).2
    exact .emits (flagDestination_eq_none (by simp [hop])) (h.trans hu.emitted) (hu.run.trans hrun)
  | case3 a t v u hread hv =>
    have hu := (strRead_ok hread).2
    exact .faults _ ((h.trans hu.emitted).trans (hemit v u).1) ((hemit v u).2.trans (hu.run.trans hrun))
  | case4 a t v u hread hv above ih =>
    have hu := (strRead_ok hread).2
    exact ih ((h.trans hu.emitted).trans (hemit v u).1) ((hemit v u).2.trans (hu.run.trans hrun))

theorem trapPuts_executed (s : State) (hop : i.opcode = .trap) : Executed i s (s.trapPuts i) :=
  scan_executed (fun v u => ⟨emitLow_emitted v u, emitLow_run v u⟩) hop _ _ (Polled.refl s).emitted rfl

theorem trapPutsp_executed (s : State) (hop : i.opcode = .trap) : Executed i s (s.trapPutsp i) :=
  scan_executed (fun v u => ⟨emitPacked_emitted v u, emitPacked_run v u⟩) hop _ _ (Polled.refl s).emitted rfl

theorem trapOut_executed (s : State) (hop : i.opcode = .trap) : Executed i s s.trapOut :=
  .emits (flagDestination_eq_none (by simp [hop])) (writeChar_emitted s _) rfl

theorem trapGetc_executed (s : State) (hop : i.opcode = .trap) (hreg : registerWritten i = some 0#3) :
    Executed i s s.trapGetc := .receives _ hop hreg (readChar_polled s).emitted rfl

theorem writeChars_emitted (s : State) (bs : List Byte) : Emitted s (s.writeChars bs) :=
  ⟨rfl, rfl, rfl, rfl, ⟨_, rfl⟩, fun _ _ _ => rfl, le_rfl, fun _ _ => rfl, id⟩

/-- IN writes R0 after its prompt and its read, whether or not it echoes a character. -/
theorem trapIn_executed (s : State) (hop : i.opcode = .trap) (hreg : registerWritten i = some 0#3) :
    Executed i s s.trapIn := by
  have hread : Emitted s (s.writeChars s.cfg.inPrompt).readChar.2 :=
    (writeChars_emitted s _).trans (readChar_polled _).emitted
  cases hc : (s.writeChars s.cfg.inPrompt).readChar.1 with
  | some c =>
    simp only [State.trapIn, hc]
    exact .receives _ hop hreg (hread.trans (writeChar_emitted _ c)) rfl
  | none =>
    simp only [State.trapIn, hc]
    exact .receives _ hop hreg hread rfl

/-- TRAP of a vector runs the vector's service. -/
theorem execTrap_executed (ign : BitVec 4) (vect : BitVec 8) (s : State) :
    ∃ t, execTrap ign vect s = .next t ∧ Executed (.trap ign vect) s t := by
  have hR0 (h : vect = 0x20#8 ∨ vect = 0x23#8) : registerWritten (.trap ign vect) = some 0#3 := if_pos h
  unfold execTrap
  fun_cases trapService vect with
  | case1 h => exact ⟨_, rfl, trapGetc_executed s rfl (hR0 (.inl h))⟩
  | case2 => exact ⟨_, rfl, trapOut_executed s rfl⟩
  | case3 => exact ⟨_, rfl, trapPuts_executed s rfl⟩
  | case4 _ _ _ h => exact ⟨_, rfl, trapIn_executed s rfl (hR0 (.inr h))⟩
  | case5 => exact ⟨_, rfl, trapPutsp_executed s rfl⟩
  | case6 _ _ _ _ _ h => exact ⟨_, rfl, .halts ign (h ▸ rfl)⟩
  | case7 => exact ⟨_, rfl, .faults _ (Polled.refl s).emitted rfl⟩

/-! ## Instructions and steps -/

/-- Every instruction answers a next state, one of those of its row. -/
theorem exec_executed (i : Instr) (s : State) : ∃ t, exec i s = .next t ∧ Executed i s t := by
  cases i with
  | br | brn | brz | brp | brnz | brnp | brzp | brnzp => exact ⟨_, rfl, branch_executed s _ _ rfl⟩
  | addReg | addImm | andReg | andImm | notReg | lea => exact ⟨_, rfl, .defines _ _ rfl (.refl s)⟩
  | ld | ldr => exact ⟨_, rfl, readThen_executed (.refl s) fun _ _ h => .defines _ _ rfl h⟩
  | ldi =>
    exact ⟨_, rfl, readThen_executed (.refl s) fun _ _ h => readThen_executed h fun _ _ h' => .defines _ _ rfl h'⟩
  | st => exact ⟨_, rfl, .stores _ _ (.inl rfl) (.refl s)⟩
  | str => exact ⟨_, rfl, .stores _ _ (.inr (.inr rfl)) (.refl s)⟩
  | sti => exact ⟨_, rfl, readThen_executed (.refl s) fun _ _ h => .stores _ _ (.inr (.inl rfl)) h⟩
  | jsr => exact ⟨_, rfl, .calls _ rfl rfl⟩
  | jsrr _ base _ => exact execJsrr_executed base s rfl rfl
  | jmp | ret => exact ⟨_, rfl, .jumps _ (.inr rfl)⟩
  | rti | res => exact ⟨_, rfl, .faults _ (Polled.refl s).emitted rfl⟩
  | trap ign vect => exact execTrap_executed ign vect s
  | getc => exact ⟨_, rfl, trapGetc_executed s rfl rfl⟩
  | out => exact ⟨_, rfl, trapOut_executed s rfl⟩
  | puts => exact ⟨_, rfl, trapPuts_executed s rfl⟩
  | inp => exact ⟨_, rfl, trapIn_executed s rfl rfl⟩
  | putsp => exact ⟨_, rfl, trapPutsp_executed s rfl⟩
  | halt ign => exact ⟨_, rfl, .halts ign rfl⟩

theorem executed_of_exec (h : exec i s = .next t) : Executed i s t := by
  obtain ⟨u, hu, hexecuted⟩ := exec_executed i s
  obtain rfl := Host.Outcome.next.inj (hu.symm.trans h)
  exact hexecuted

end Sys2Proof.Machine
end

section
/-! PROOF. Who writes the registers, PC, the flags and the run state (spec/10_state.md R22, R27, R30, R32 to R34), read off
from what an instruction can do. -/

namespace Sys2Proof.Machine

variable {i : Instr} {s t : State}

theorem Emitted.reg (h : Emitted s t) (r : RegIdx) : t.reg r = s.reg r := by simp only [State.reg, h.regs]

/-! ## Registers -/

theorem Executed.reg (h : Executed i s t) {r : RegIdx} (hr : registerWritten i ≠ some r) : t.reg r = s.reg r := by
  have hne {d : RegIdx} (hd : registerWritten i = some d) : r ≠ d := fun e => hr (e ▸ hd)
  cases h with
  | emits _ hu => exact hu.reg r
  | defines dr v hdest hu =>
    exact (reg_writeDR_ne _ v (hne (registerWritten_of_flagDestination hdest))).trans (hu.reg r)
  | stores _ _ _ hu => exact hu.reg r
  | receives v _ hreg hu => exact (reg_setReg_ne _ v (hne hreg)).trans (hu.reg r)
  | jumps => rfl
  | calls _ _ hreg => exact reg_setReg_ne s _ (hne hreg)
  | halts => rfl
  | faults _ hu => exact hu.reg r

/-- Settles O23: an instruction leaves every register but the one its row of R22 gives it. -/
theorem registersWrittenAreTheTables : Obligations.RegistersWrittenAreTheTables := fun _ _ _ _ hexec hchanged =>
  by_contra fun hr => hchanged ((executed_of_exec hexec).reg hr)

/-! ## Flags -/

/-- An instruction writes the flags of its DR's new value; or it leaves them, having no DR or not completing. -/
theorem Executed.flags (h : Executed i s t) :
    (∃ dr, flagDestination i = some dr ∧ t.run = s.run ∧ t.cond = nzp (t.reg dr)) ∨
    (t.cond = s.cond ∧ (flagDestination i = none ∨ t.run ≠ .running)) := by
  cases h with
  | emits hdest hu => exact .inr ⟨hu.cond, .inl hdest⟩
  | defines dr v hdest hu => exact .inl ⟨dr, hdest, hu.run, by simp⟩
  | stores _ _ hop hu =>
    exact .inr ⟨hu.cond, .inl (flagDestination_eq_none (by obtain h | h | h := hop <;> simp [h]))⟩
  | receives _ hop _ hu => exact .inr ⟨hu.cond, .inl (flagDestination_eq_none (by simp [hop]))⟩
  | jumps _ hop => exact .inr ⟨rfl, .inl (flagDestination_eq_none (by obtain h | h := hop <;> simp [h]))⟩
  | calls _ hop => exact .inr ⟨rfl, .inl (flagDestination_eq_none (by simp [hop]))⟩
  | halts => exact .inr ⟨rfl, .inr nofun⟩
  | faults _ hu => exact .inr ⟨hu.cond, .inr nofun⟩

/-- A flag-setting instruction that completes sets the flags of its DR's new value. -/
theorem Executed.cond_of_completes {dr : RegIdx} (h : Executed i s t) (hdest : flagDestination i = some dr)
    (hrun : t.run = .running) : t.cond = nzp (t.reg dr) := by
  obtain ⟨d, hd, -, hcond⟩ | ⟨-, hnone | hstop⟩ := h.flags
  · exact Option.some.inj (hd.symm.trans hdest) ▸ hcond
  · cases hnone.symm.trans hdest
  · exact absurd hrun hstop

theorem Executed.cond_of_no_destination (h : Executed i s t) (hdest : flagDestination i = none) : t.cond = s.cond := by
  obtain ⟨d, hd, -⟩ | ⟨hcond, -⟩ := h.flags
  · cases hd.symm.trans hdest
  · exact hcond

theorem Executed.cond_of_stops (h : Executed i s t) (hs : s.run = .running) (ht : t.run ≠ .running) :
    t.cond = s.cond := by
  obtain ⟨-, -, hrun, -⟩ | ⟨hcond, -⟩ := h.flags
  · exact absurd (hrun.trans hs) ht
  · exact hcond

/-- Settles O22: each clause is one of the cases of what an instruction does to the flags. -/
theorem onlySevenOpcodesWriteFlags : Obligations.OnlySevenOpcodesWriteFlags := fun i _ _ hexec =>
  have h := executed_of_exec hexec
  ⟨h.cond_of_no_destination, fun _ hdest _ hrun => h.cond_of_completes hdest hrun ▸ flagsOf_nzp _,
    fun _ _ hs ht => h.cond_of_stops hs ht, flagDestination_ne_none_iff i⟩

theorem Executed.oneHot (h : Executed i s t) (hs : OneHot s.cond) : OneHot t.cond := by
  obtain ⟨_, -, -, hcond⟩ | ⟨hcond, -⟩ := h.flags
  · exact hcond ▸ oneHot_nzp _
  · exact hcond ▸ hs

/-- A fetch leaves the flags, and the instruction keeps one of them set. -/
theorem step_oneHot (hs : OneHot s.cond) (h : step s = .next t) : OneHot t.cond := by
  obtain ⟨-, e⟩ | ⟨w, u, -, hread, e⟩ | ⟨r, u, -, hread, e⟩ := step_cases s
  · obtain rfl := Host.Outcome.next.inj (e.symm.trans h)
    exact hs
  · have hu := (memRead_ok hread).2
    exact (executed_of_exec (e.symm.trans h)).oneHot (hu.cond ▸ hs)
  · obtain ⟨-, -, -, hu⟩ := memRead_fail hread
    obtain rfl := Host.Outcome.next.inj (e.symm.trans h)
    exact hu.cond ▸ hs

/-- Settles O20: the flags of a value are one-hot, and every other step leaves the flags. -/
theorem flagsStayOneHot : Obligations.FlagsStayOneHot :=
  ⟨fun _ _ _ _ hdest _ hexec hrun => (executed_of_exec hexec).cond_of_completes hdest hrun ▸ oneHot_nzp _,
    fun _ _ => step_oneHot⟩

/-! ## PC, the run state and the fault record -/

theorem Executed.pc (h : Executed i s t) (hbr : i.opcode ≠ .br) (hjmp : i.opcode ≠ .jmp) (hjsr : i.opcode ≠ .jsr) :
    t.pc = s.pc := by
  cases h with
  | emits _ hu => exact hu.pc
  | defines _ _ _ hu => exact hu.pc
  | stores _ _ _ hu => exact hu.pc
  | receives _ _ _ hu => exact hu.pc
  | jumps _ hop => exact (hop.elim hbr hjmp).elim
  | calls _ hop => exact absurd hop hjsr
  | halts => rfl
  | faults _ hu => exact hu.pc

/-- An instruction leaves the run state, halts, or faults with the record of R34 and PC as it was. -/
theorem Executed.run (h : Executed i s t) :
    t.run = s.run ∨ (t.run = .halted ∧ ∃ ign, encode i = trapWord ign 0x25#8) ∨
    ∃ reason, t.run = .faulted { reason, word := some (encode i), addr := s.pc - 1#16 } ∧ t.pc = s.pc := by
  cases h with
  | emits _ _ hrun => exact .inl hrun
  | defines _ _ _ hu => exact .inl hu.run
  | stores _ _ _ hu => exact .inl hu.run
  | receives _ _ _ _ hrun => exact .inl hrun
  | jumps => exact .inl rfl
  | calls => exact .inl rfl
  | halts ign hword => exact .inr (.inl ⟨rfl, ign, hword⟩)
  | faults r hu => exact .inr (.inr ⟨r, by rw [faultIn_run, hu.pc], hu.pc⟩)

theorem Executed.of_faulted {record : FaultRecord} (h : Executed i s t) (hs : s.run = .running)
    (ht : t.run = .faulted record) :
    t.pc = s.pc ∧ record.word = some (encode i) ∧ record.addr = s.pc - 1#16 := by
  obtain hrun | ⟨hrun, -⟩ | ⟨r, hrun, hpc⟩ := h.run
  · cases ht.symm.trans (hrun.trans hs)
  · cases ht.symm.trans hrun
  · obtain rfl := RunState.faulted.inj (hrun.symm.trans ht)
    exact ⟨hpc, rfl, rfl⟩

theorem Executed.of_halted (h : Executed i s t) (hs : s.run = .running) (ht : t.run = .halted) :
    ∃ ign, encode i = trapWord ign 0x25#8 := by
  obtain hrun | ⟨-, hword⟩ | ⟨r, hrun, -⟩ := h.run
  · cases ht.symm.trans (hrun.trans hs)
  · exact hword
  · cases ht.symm.trans hrun

/-- A step that faults does so in its fetch read, at KBSR, or in the execution of the word it fetched. -/
theorem step_faulted {record : FaultRecord} (hs : s.run = .running) (h : step s = .next t)
    (ht : t.run = .faulted record) :
    record.addr = s.pc ∧
    ((record.word = none ∧ t.pc = s.pc ∧ s.pc = s.cfg.kbsrAddr ∧ ∃ u, s.memRead s.pc = .fail record.reason u) ∨
      ∃ w u, s.memRead s.pc = .ok w u ∧ record.word = some w ∧ t.pc = s.pc + 1#16) := by
  obtain ⟨hstop, -⟩ | ⟨w, u, -, hread, e⟩ | ⟨r, u, -, hread, e⟩ := step_cases s
  · exact absurd hs hstop
  · have hu := (memRead_ok hread).2
    obtain ⟨hpc, hword, haddr⟩ := (executed_of_exec (e.symm.trans h)).of_faulted (hu.run.trans hs) ht
    refine ⟨?_, .inr ⟨w, u, hread, ?_, hpc⟩⟩
    · simpa using haddr
    · rw [hword, encode_decode]
  · obtain ⟨hkbsr, -, -, hu⟩ := memRead_fail hread
    obtain rfl := Host.Outcome.next.inj (e.symm.trans h)
    obtain rfl := RunState.faulted.inj ht
    exact ⟨hu.pc, .inl ⟨rfl, hu.pc, hkbsr, u, hread⟩⟩

/-- Settles O21: the instructions that leave PC, and PC in the two ways a step faults. -/
theorem onlyControlTransferWritesPc : Obligations.OnlyControlTransferWritesPc := by
  refine ⟨fun i s t hexec hpc => ?_, fun s t record hs h ht => ?_⟩
  · by_contra hop
    obtain ⟨hbr, hjmp, hjsr⟩ : i.opcode ≠ .br ∧ i.opcode ≠ .jmp ∧ i.opcode ≠ .jsr := by simpa using hop
    exact hpc ((executed_of_exec hexec).pc hbr hjmp hjsr)
  · obtain ⟨-, ⟨hnone, hpc, hkbsr, -⟩ | ⟨w, -, -, hword, hpc⟩⟩ := step_faulted hs h ht
    · exact ⟨fun hne => absurd hnone hne, fun _ => ⟨hpc, hkbsr⟩⟩
    · exact ⟨fun _ => hpc, fun hnone => by cases hnone.symm.trans hword⟩

/-- Settles O27: the word the record holds is the fetched one, because the encoder undoes the decoder. -/
theorem faultRecordNamesTheStep : Obligations.FaultRecordNamesTheStep := fun s t record hs h ht => by
  obtain ⟨haddr, ⟨hnone, -, -, hread⟩ | ⟨w, u, hread, hword, -⟩⟩ := step_faulted hs h ht
  · exact ⟨haddr, .inl ⟨hnone, hread⟩⟩
  · exact ⟨haddr, .inr ⟨w, u, hread, hword⟩⟩

/-! ## HALTED -/

/-- R94: the vector of a TRAP word. -/
theorem field_trapWord_vector (ign : BitVec 4) (vect : BitVec 8) : field (trapWord ign vect) 0 8 = vect :=
  BitVec.extractLsb'_append_eq_right

/-- Settles O26: an instruction that halts is a TRAP of vector 0x25, whose word is the fetched one. -/
theorem onlyTrapHaltReachesHalted : Obligations.OnlyTrapHaltReachesHalted := fun s t hs h ht => by
  obtain ⟨hstop, -⟩ | ⟨w, u, -, hread, e⟩ | ⟨r, u, -, -, e⟩ := step_cases s
  · exact absurd hs hstop
  · have hu := (memRead_ok hread).2
    obtain ⟨ign, hword⟩ := (executed_of_exec (e.symm.trans h)).of_halted (hu.run.trans hs) ht
    obtain rfl := (encode_decode w).symm.trans hword
    exact ⟨_, u, hread, Laws.OpcodeBits.trap ign 0x25#8, field_trapWord_vector ign _⟩
  · obtain rfl := Host.Outcome.next.inj (e.symm.trans h)
    cases ht

end Sys2Proof.Machine
end

section
/-! PROOF. The canonical form of memory (spec/20_memory.md R50, R51): its cells are settled by the words they hold. -/

namespace Sys2Proof.Machine

variable {m : Memory}

/-- A listed cell is the one its address reads: no cell before it has that address. -/
theorem Memory.read_of_mem (hm : Memory.wf m) {c : Nat × Word} (hc : c ∈ m) : Memory.read m c.1 = c.2 := by
  obtain ⟨hrising, -⟩ := hm
  induction hrising with
  | nil => cases hc
  | cons hd _ ih =>
    obtain rfl | hc := List.mem_cons.1 hc
    · exact if_pos rfl
    · exact (if_neg (hd c hc).ne).trans (ih hc)

/-- An address that does not read as unlisted is listed, with the word it reads. -/
theorem Memory.mem_of_read_ne {a : Nat} (h : Memory.read m a ≠ unlistedWord) : (a, Memory.read m a) ∈ m := by
  induction m with
  | nil => exact absurd rfl h
  | cons d m ih =>
    by_cases hd : d.1 = a
    · simp [Memory.read, ← hd]
    · simp only [Memory.read, hd, if_false] at h ⊢
      exact List.mem_cons_of_mem d (ih h)

/-- The cells of a canonical memory are the words it holds that differ from an unlisted address's. -/
theorem Memory.mem_iff_read (hm : Memory.wf m) {c : Nat × Word} :
    c ∈ m ↔ Memory.read m c.1 = c.2 ∧ c.2 ≠ unlistedWord := by
  refine ⟨fun hc => ⟨Memory.read_of_mem hm hc, (hm.2 c hc).2⟩, fun ⟨hread, hlisted⟩ => ?_⟩
  have hmem : (c.1, Memory.read m c.1) ∈ m := Memory.mem_of_read_ne (hread ▸ hlisted)
  rwa [hread] at hmem

/-- Settles O14: the two have the same cells, and both list them by rising address. -/
theorem sameWordsAreTheSameMemory : Obligations.SameWordsAreTheSameMemory := fun m m' hm hm' hread => by
  have hcells (c : Nat × Word) : c ∈ m ↔ c ∈ m' := by
    rw [Memory.mem_iff_read hm, Memory.mem_iff_read hm', hread]
  have hirrefl : Std.Irrefl fun c d : Nat × Word => c.1 < d.1 := ⟨fun c => lt_irrefl c.1⟩
  have hantisymm : Std.Antisymm fun c d : Nat × Word => c.1 < d.1 := ⟨fun _ _ h h' => absurd h' h.asymm⟩
  exact List.Pairwise.eq_of_mem_iff hm.1 hm'.1 hcells

end Sys2Proof.Machine
end

section
/-! PROOF. Reads and writes of memory, and the adapter's answers (spec/20_memory.md R53 to R58, R70, R71). -/

namespace Sys2Proof.Machine

variable {s : State}

/-! ## Writes, and reads away from KBSR -/

theorem memWrite_storesWord (s : State) (a v : Word) : StoresWord a v s (s.memWrite a v) :=
  ⟨peek_memWrite_self s a v, fun _ hb => peek_memWrite_ne s v hb, fun _ => rfl, rfl, rfl, rfl, rfl, rfl, rfl⟩

/-- Settles O9: the read after the write goes by the address, because the write leaves the parameters. -/
theorem writeStoresTheWord : Obligations.WriteStoresTheWord := fun a v s => by
  refine ⟨memWrite_storesWord s a v, fun ha => ?_, fun ha => ?_⟩
  · have hread : (s.memWrite a v).memRead a = .ok ((s.memWrite a v).peek a) (s.memWrite a v) := memRead_of_ne _ ha
    rwa [peek_memWrite_self] at hread
  · subst ha
    exact memRead_kbsr (s.memWrite s.cfg.kbsrAddr v)

/-- Settles O10: KBDR is not KBSR, and a read elsewhere is plain. -/
theorem kbdrReadIsPlain : Obligations.KbdrReadIsPlain := fun s hwf => memRead_of_ne s hwf.symm

/-- Settles O13: by what a failing read can be. -/
theorem onlyAKbsrReadCanFail : Obligations.OnlyAKbsrReadCanFail := fun _ _ _ _ hfail =>
  have ⟨hkbsr, hreason, _⟩ := memRead_fail hfail
  ⟨hkbsr, hreason⟩

/-! ## The adapter -/

/-- Settles O12: a script answers its head and keeps its tail, and a call updates only the adapter. -/
theorem adapterAnswersInOrder : Obligations.AdapterAnswersInOrder := fun s => by
  refine ⟨fun b bs hkeys => ⟨?_, ?_, rfl⟩, fun c cs hchars => ⟨?_, ?_, rfl⟩, rfl, rfl, rfl, rfl⟩
  · simp [State.keyAvailable, hkeys]
  · simp [hkeys]
  · simp [State.readChar, hchars]
  · simp [hchars]

/-! ## The stores of a poll -/

/-- R10: zero extension of a character puts a zero byte above it. -/
theorem zext16_eq_append (c : Byte) : zext16 c = 0x00#8 ++ c := BitVec.setWidth_eq_append (by decide)

theorem peek_pollEmpty_ne (s : State) {a : Word} (ha : a ≠ s.cfg.kbsrAddr) : s.pollEmpty.peek a = s.peek a := by
  unfold State.pollEmpty
  split <;> exact peek_memWrite_ne s _ ha

theorem peek_pollEmpty_of_wholeWord (h : s.cfg.kbPollWrite = .wholeWord) :
    s.pollEmpty.peek s.cfg.kbsrAddr = 0x0000#16 := by simp [State.pollEmpty, h]

theorem peek_pollEmpty_of_topBitOnly (h : s.cfg.kbPollWrite = .topBitOnly) :
    s.pollEmpty.peek s.cfg.kbsrAddr = s.peek s.cfg.kbsrAddr &&& 0x7FFF#16 := by simp [State.pollEmpty, h]

theorem peek_pollFound_of_wholeWord (c : Byte) (hne : s.cfg.kbsrAddr ≠ s.cfg.kbdrAddr)
    (h : s.cfg.kbPollWrite = .wholeWord) :
    (s.pollFound c).peek s.cfg.kbsrAddr = 0x8000#16 ∧ (s.pollFound c).peek s.cfg.kbdrAddr = 0x00#8 ++ c := by
  simp [State.pollFound, h, hne, zext16_eq_append]

/-- The high byte that KBDR keeps is its old one, because KBSR, which is stored first, is another word. -/
theorem peek_pollFound_of_topBitOnly (c : Byte) (hne : s.cfg.kbsrAddr ≠ s.cfg.kbdrAddr)
    (h : s.cfg.kbPollWrite = .topBitOnly) :
    (s.pollFound c).peek s.cfg.kbsrAddr = s.peek s.cfg.kbsrAddr ||| 0x8000#16 ∧
    (s.pollFound c).peek s.cfg.kbdrAddr = (s.peek s.cfg.kbdrAddr).extractLsb' 8 8 ++ c := by
  simp [State.pollFound, h, hne, hne.symm, high8]

theorem pollEmpty_adapter (s : State) : s.pollEmpty.adapter = s.adapter := by
  obtain ⟨-, -, -, -, -, -, hadapter, -⟩ := pollEmpty_frame s
  exact hadapter

theorem pollFound_adapter (s : State) (c : Byte) : (s.pollFound c).adapter = s.adapter := by
  obtain ⟨-, -, -, -, -, -, hadapter, -⟩ := pollFound_frame c s
  exact hadapter

/-! ## The three outcomes of a poll -/

theorem memRead_kbsr_no_key (hkey : s.keyAvailable.1 = false) :
    s.memRead s.cfg.kbsrAddr = .ok (s.keyAvailable.2.pollEmpty.peek s.cfg.kbsrAddr) s.keyAvailable.2.pollEmpty := by
  simp [memRead_kbsr, State.readKbsr, hkey]

theorem memRead_kbsr_char {c : Byte} (hkey : s.keyAvailable.1 = true) (hc : s.keyAvailable.2.readChar.1 = some c) :
    s.memRead s.cfg.kbsrAddr = .ok ((s.keyAvailable.2.readChar.2.pollFound c).peek s.cfg.kbsrAddr)
      (s.keyAvailable.2.readChar.2.pollFound c) := by
  simp [memRead_kbsr, State.readKbsr, hkey, hc]

theorem memRead_kbsr_no_char (hkey : s.keyAvailable.1 = true) (hc : s.keyAvailable.2.readChar.1 = none) :
    s.memRead s.cfg.kbsrAddr = .fail .adapterContract s.keyAvailable.2.readChar.2 := by
  simp [memRead_kbsr, State.readKbsr, hkey, hc]

/-- Settles O11: each outcome is the poll's stores after the adapter's calls, and `Polled` is what they leave. -/
theorem kbsrReadPolls : Obligations.KbsrReadPolls := fun s => by
  refine ⟨fun hkey => ?_, fun c hwf hkey hc => ?_, memRead_kbsr_no_char⟩
  · have hread := memRead_kbsr_no_key hkey
    have hu := (memRead_ok hread).2
    exact ⟨_, _, hread, rfl, peek_pollEmpty_of_wholeWord (s := s.keyAvailable.2),
      peek_pollEmpty_of_topBitOnly (s := s.keyAvailable.2), fun _ => peek_pollEmpty_ne s.keyAvailable.2,
      hu.reg, hu.cond, hu.pc, hu.run, hu.cfg, hu.out, pollEmpty_adapter _⟩
  · have hread := memRead_kbsr_char hkey hc
    have hu := (memRead_ok hread).2
    exact ⟨_, _, hread, rfl, peek_pollFound_of_wholeWord (s := s.keyAvailable.2.readChar.2) c hwf,
      peek_pollFound_of_topBitOnly (s := s.keyAvailable.2.readChar.2) c hwf, hu.elsewhere,
      hu.reg, hu.cond, hu.pc, hu.run, hu.cfg, hu.out, pollFound_adapter _ c⟩

end Sys2Proof.Machine
end

section
/-! PROOF. The word of a store decodes to that store (spec/30_encoding.md R82, R89). -/

namespace Sys2Proof

theorem Opcode.ofBits_value (o : Opcode) : Opcode.ofBits o.value = o := by cases o <;> decide

theorem opcodeOf_eq {w : Word} {o : Opcode} (h : field w 12 4 = o.value) : opcodeOf w = o :=
  (congrArg Opcode.ofBits h).trans (Opcode.ofBits_value o)

theorem decode_encode_st (sr : RegIdx) (off : BitVec 9) : decode (encode (.st sr off)) = .st sr off := by
  have hop : opcodeOf (encode (.st sr off)) = .st := opcodeOf_eq (Laws.OpcodeBits.st sr off)
  have hsr : field (encode (.st sr off)) 9 3 = sr :=
    (BitVec.extractLsb'_append_eq_of_le (by decide)).trans BitVec.extractLsb'_append_eq_right
  have hoff : field (encode (.st sr off)) 0 9 = off := BitVec.extractLsb'_append_eq_right
  simp only [decode, hop, hsr, hoff]

end Sys2Proof
end

section
/-! PROOF. Memory and output across instructions and steps (spec/20_memory.md R52, R67, R72). -/

namespace Sys2Proof.Machine

variable {i : Instr} {s t : State}

/-! ## The invariant and the output -/

/-- Settles O18: a step evolves the state, which keeps memory canonical and the parameters as they are. -/
theorem stepKeepsTheInvariant : Obligations.StepKeepsTheInvariant := fun _ _ ⟨hmem, hcfg⟩ h =>
  have hevolves := step_evolves h
  ⟨hevolves.wf hmem, hevolves.cfg ▸ hcfg⟩

/-- Settles O30: a step evolves the state, which only adds output. -/
theorem outputOnlyGrows : Obligations.OutputOnlyGrows := fun _ _ h => (step_evolves h).out

/-! ## Who writes memory -/

/-- Polls change only the keyboard words, and only with a call of the adapter. -/
theorem Emitted.of_peek_ne (h : Emitted s t) {a : Word} (hne : t.peek a ≠ s.peek a) :
    (a = s.cfg.kbsrAddr ∨ a = s.cfg.kbdrAddr) ∧ t.adapter.calls ≠ s.adapter.calls := by
  refine ⟨?_, fun hcalls => hne (h.idle hcalls a)⟩
  by_contra hkb
  obtain ⟨hkbsr, hkbdr⟩ := not_or.1 hkb
  exact hne (h.elsewhere a hkbsr hkbdr)

/-- An instruction that changes a word is a store, or has polled that word. -/
theorem Executed.of_peek_ne (h : Executed i s t) {a : Word} (hne : t.peek a ≠ s.peek a) :
    (i.opcode = .st ∨ i.opcode = .sti ∨ i.opcode = .str) ∨
    ((a = s.cfg.kbsrAddr ∨ a = s.cfg.kbdrAddr) ∧ t.adapter.calls ≠ s.adapter.calls) := by
  cases h with
  | emits _ hu => exact .inr (hu.of_peek_ne hne)
  | defines _ _ _ hu => exact .inr (hu.emitted.of_peek_ne hne)
  | stores _ _ hop => exact .inl hop
  | receives _ _ _ hu => exact .inr (hu.of_peek_ne hne)
  | jumps => exact absurd rfl hne
  | calls => exact absurd rfl hne
  | halts => exact absurd rfl hne
  | faults _ hu => exact .inr (hu.of_peek_ne hne)

/-- Settles O24: by what an instruction can do to a word of memory. -/
theorem onlyStoresAndPollsWriteMemory : Obligations.OnlyStoresAndPollsWriteMemory := fun i s t a hexec hne => by
  simpa only [or_assoc] using (executed_of_exec hexec).of_peek_ne hne

/-! ## A store to the next instruction -/

/-- R121, R122: away from KBSR a step executes the stored word at PC, with PC incremented. -/
theorem step_of_pc_ne_kbsr (hrun : s.run = .running) (hpc : s.pc ≠ s.cfg.kbsrAddr) :
    step s = exec (decode (s.peek s.pc)) (s.setPc (s.pc + 1#16)) := by
  simp [step, State.fetch, hrun, memRead_of_ne s hpc]

/-- R165: ST with offset 0 stores at PC, which is the address after the store's own (R122). -/
theorem exec_st_zero (sr : RegIdx) (s : State) : exec (.st sr 0#9) s = .next (s.memWrite s.pc (s.reg sr)) := by
  simp [exec, execSt, State.pcRelative, sext]

/-- Settles O25: the store writes the word at the incremented PC, which the next step fetches. -/
theorem storeIsFetchedByTheNextStep : Obligations.StoreIsFetchedByTheNextStep :=
    fun s sr hrun hpc hnext hword => by
  have hstep : step s = .next ((s.setPc (s.pc + 1#16)).memWrite (s.pc + 1#16) (s.reg sr)) := by
    rw [step_of_pc_ne_kbsr hrun hpc, hword, decode_encode_st, exec_st_zero, setPc_pc, reg_setPc]
  refine ⟨_, hstep, ?_⟩
  have hfetch := step_of_pc_ne_kbsr (s := (s.setPc (s.pc + 1#16)).memWrite (s.pc + 1#16) (s.reg sr)) hrun hnext
  rwa [memWrite_pc, setPc_pc, peek_memWrite_self, BitVec.add_assoc] at hfetch

end Sys2Proof.Machine
end

section
/-! PROOF. The decoder undoes the encoder (spec/30_encoding.md R83, R104): bits 15:12 of an instruction's word, the bit
that selects its form, and its fields are the ones the encoder wrote. So a word and its well-formed instruction
determine each other. -/

namespace Sys2Proof

/-! ## The opcode -/

/-- R81, R82: the facts of `Laws.OpcodeBits`, for every instruction. -/
theorem field_encode_opcode : ∀ i : Instr, field (encode i) 12 4 = i.opcode.value
  | .br .. => Laws.OpcodeBits.br ..
  | .addReg .. => Laws.OpcodeBits.addReg ..
  | .addImm .. => Laws.OpcodeBits.addImm ..
  | .ld .. => Laws.OpcodeBits.ld ..
  | .st .. => Laws.OpcodeBits.st ..
  | .jsr .. => Laws.OpcodeBits.jsr ..
  | .jsrr .. => Laws.OpcodeBits.jsrr ..
  | .andReg .. => Laws.OpcodeBits.andReg ..
  | .andImm .. => Laws.OpcodeBits.andImm ..
  | .ldr .. => Laws.OpcodeBits.ldr ..
  | .str .. => Laws.OpcodeBits.str ..
  | .rti .. => Laws.OpcodeBits.rti ..
  | .notReg .. => Laws.OpcodeBits.notReg ..
  | .ldi .. => Laws.OpcodeBits.ldi ..
  | .sti .. => Laws.OpcodeBits.sti ..
  | .jmp .. => Laws.OpcodeBits.jmp ..
  | .res .. => Laws.OpcodeBits.res ..
  | .lea .. => Laws.OpcodeBits.lea ..
  | .trap .. => Laws.OpcodeBits.trap ..
  | .ret .. => Laws.OpcodeBits.ret ..
  | .getc .. => Laws.OpcodeBits.getc ..
  | .out .. => Laws.OpcodeBits.out ..
  | .puts .. => Laws.OpcodeBits.puts ..
  | .inp .. => Laws.OpcodeBits.inp ..
  | .putsp .. => Laws.OpcodeBits.putsp ..
  | .halt .. => Laws.OpcodeBits.halt ..
  | .brn .. => Laws.OpcodeBits.brn ..
  | .brz .. => Laws.OpcodeBits.brz ..
  | .brp .. => Laws.OpcodeBits.brp ..
  | .brnz .. => Laws.OpcodeBits.brnz ..
  | .brnp .. => Laws.OpcodeBits.brnp ..
  | .brzp .. => Laws.OpcodeBits.brzp ..
  | .brnzp .. => Laws.OpcodeBits.brnzp ..

theorem opcodeOf_encode (i : Instr) : opcodeOf (encode i) = i.opcode := opcodeOf_eq (field_encode_opcode i)

/-- Settles O3: the decoded instruction has the word's opcode bits, because its encoding is the word. -/
theorem opcodeIsBits15To12 : Obligations.OpcodeIsBits15To12 := by
  refine ⟨fun w => ?_, rfl, rfl, rfl, rfl, rfl, rfl, rfl, rfl, rfl, rfl, rfl, rfl, rfl, rfl, rfl, rfl⟩
  have hop := field_encode_opcode (decode w)
  rw [encode_decode] at hop
  exact hop.symm

/-! ## The rows of R103 -/

theorem decode_encode_br (mask : BitVec 3) (off : BitVec 9) : decode (encode (.br mask off)) = brOfMask mask off := by
  simp only [decode, opcodeOf_encode, Instr.opcode]
  simp only [encode, brWord, field, BitVec.extractLsb'_append_eq_ite]
  simp

theorem decode_encode_jmp (ign : BitVec 3) (base : RegIdx) (ign' : BitVec 6) :
    decode (encode (.jmp ign base ign')) = jmpOfBase ign base ign' := by
  simp only [decode, opcodeOf_encode, Instr.opcode]
  simp only [encode, jmpWord, field, BitVec.extractLsb'_append_eq_ite]
  simp

theorem decode_encode_trap (ign : BitVec 4) (vect : BitVec 8) :
    decode (encode (.trap ign vect)) = trapOfVector ign vect := by
  simp only [decode, opcodeOf_encode, Instr.opcode]
  simp only [encode, trapWord, field, BitVec.extractLsb'_append_eq_ite]
  simp

/-- The service vectors are the six of R210. -/
theorem isServiceVector_iff (v : BitVec 8) :
    isServiceVector v = true ↔
      v = 0x20#8 ∨ v = 0x21#8 ∨ v = 0x22#8 ∨ v = 0x23#8 ∨ v = 0x24#8 ∨ v = 0x25#8 := by
  simp only [isServiceVector, Bool.and_eq_true, decide_eq_true_eq]
  bv_omega

theorem brOfMask_wf (mask : BitVec 3) (off : BitVec 9) : (brOfMask mask off).wf = true := by
  fun_cases brOfMask mask off <;> rfl

theorem jmpOfBase_wf (ign : BitVec 3) (base : RegIdx) (ign' : BitVec 6) : (jmpOfBase ign base ign').wf = true := by
  fun_cases jmpOfBase ign base ign' with
  | case1 => rfl
  | case2 hbase => simpa [Instr.wf] using hbase

theorem trapOfVector_wf (ign : BitVec 4) (vect : BitVec 8) : (trapOfVector ign vect).wf = true := by
  fun_cases trapOfVector ign vect with
  | case7 => simp_all [Instr.wf, ← Bool.not_eq_true, isServiceVector_iff]
  | _ => rfl

theorem trapOfVector_of_not_service (ign : BitVec 4) {vect : BitVec 8} (h : isServiceVector vect = false) :
    trapOfVector ign vect = .trap ign vect := by
  simp only [← Bool.not_eq_true, isServiceVector_iff, not_or] at h
  simp [trapOfVector, h]

/-! ## Instructions and words -/

theorem decode_wf (w : Word) : (decode w).wf = true := by
  unfold decode
  cases opcodeOf w
  case br => exact brOfMask_wf _ _
  case jmp => exact jmpOfBase_wf _ _ _
  case trap => exact trapOfVector_wf _ _
  case add | and | jsr =>
    dsimp only
    split <;> rfl
  case ld | st | ldr | str | rti | not | ldi | sti | res | lea => rfl

theorem decode_encode {i : Instr} (hwf : i.wf = true) : decode (encode i) = i := by
  cases i with
  | br mask off =>
    obtain rfl : mask = 0#3 := by simpa [Instr.wf] using hwf
    exact decode_encode_br _ off
  | brn off | brz off | brp off | brnz off | brnp off | brzp off | brnzp off => exact decode_encode_br _ off
  | jmp ign base ign' =>
    have hbase : base ≠ 7#3 := by simpa [Instr.wf] using hwf
    exact (decode_encode_jmp ign base ign').trans (if_neg hbase)
  | ret ign ign' => exact decode_encode_jmp ign _ ign'
  | trap ign vect =>
    have hvect : isServiceVector vect = false := by simpa [Instr.wf] using hwf
    exact (decode_encode_trap ign vect).trans (trapOfVector_of_not_service ign hvect)
  | getc ign | out ign | puts ign | inp ign | putsp ign | halt ign => exact decode_encode_trap ign _
  | st sr off => exact decode_encode_st sr off
  | addReg | addImm | andReg | andImm | jsr | jsrr | ld | ldi | sti | lea | ldr | str | notReg | rti | res =>
    simp only [decode, opcodeOf_encode, Instr.opcode]
    simp only [encode, field, BitVec.extractLsb'_append_eq_ite, BitVec.getLsbD_append]
    simp

/-- Settles O1: by the opcode of the word and the fields of its format. -/
theorem decodeOfEncodeIsIdentity : Obligations.DecodeOfEncodeIsIdentity := fun _ => decode_encode

/-- Settles O2: decoding and encoding undo each other, so the encoding of an instruction determines it. -/
theorem everyWordIsOneInstruction : Obligations.EveryWordIsOneInstruction := fun w =>
  ⟨decode_wf w, encode_decode w, fun _ hwf hw => hw ▸ (decode_encode hwf).symm⟩

end Sys2Proof
end

section
/-! PROOF. Every instruction answers a next state, and ignored bits reach it only in a fault record's word
(spec/30_encoding.md R98, spec/10_state.md R34). -/

namespace Sys2Proof.Machine

/-- Settles O17: by the cases of what an instruction and a step can do. -/
theorem everyStepAnswersANextState : Obligations.EveryStepAnswersANextState :=
  ⟨fun i s => (exec_next i s).imp fun _ ⟨hnext, _⟩ => hnext, fun s => (step_next s).imp fun _ ⟨hnext, _⟩ => hnext⟩

/-! ## One word of a scan -/

section

variable (i : Instr) (emit : Word → State → State) {a v : Word} {s u : State}

theorem scan_of_fail (above : Nat) {r : FaultReason} (h : s.strRead a = .fail r u) :
    scan i emit above a s = u.faultIn i r := by
  unfold scan
  simp [h]

theorem scan_of_zero (above : Nat) (h : s.strRead a = .ok 0x0000#16 u) : scan i emit above a s = u := by
  unfold scan
  simp [h]

theorem scan_of_last (h : s.strRead a = .ok v u) (hv : v ≠ 0x0000#16) :
    scan i emit 0 a s = (emit v u).faultIn i .stringWrap := by
  unfold scan
  simp [h, hv]

theorem scan_of_more (above : Nat) (h : s.strRead a = .ok v u) (hv : v ≠ 0x0000#16) :
    scan i emit (above + 1) a s = scan i emit above (a + 1#16) (emit v u) := by
  conv_lhs => unfold scan
  simp [h, hv]

end

/-! ## The instruction of a fault -/

/-- The instruction that faults shows only in the record's word. -/
theorem faultIn_forgetFaultWord (i j : Instr) (r : FaultReason) (s : State) :
    (s.faultIn i r).forgetFaultWord = (s.faultIn j r).forgetFaultWord := rfl

/-- The instruction that scans shows only in the word of the scan's fault. -/
theorem scan_forgetFaultWord (i j : Instr) (emit : Word → State → State) (above : Nat) (a : Word) (s : State) :
    (scan i emit above a s).forgetFaultWord = (scan j emit above a s).forgetFaultWord := by
  fun_induction scan i emit above a s with
  | case1 above a s r u hread =>
    rw [scan_of_fail j emit above hread]
    exact faultIn_forgetFaultWord i j r u
  | case2 above a s u hread => rw [scan_of_zero j emit above hread]
  | case3 a s v u hread hv =>
    rw [scan_of_last j emit hread hv]
    exact faultIn_forgetFaultWord i j .stringWrap (emit v u)
  | case4 a s v u hread hv above ih =>
    rw [scan_of_more j emit above hread hv]
    exact ih

theorem execTrap_forgetFaultWord (x y : BitVec 4) (vect : BitVec 8) (s : State) :
    ∃ t u, execTrap x vect s = .next t ∧ execTrap y vect s = .next u ∧ t.forgetFaultWord = u.forgetFaultWord := by
  unfold execTrap
  cases trapService vect with
  | getc | out | inp | halt => exact ⟨_, _, rfl, rfl, rfl⟩
  | puts | putsp => exact ⟨_, _, rfl, rfl, scan_forgetFaultWord _ _ _ _ _ s⟩
  | unknown => exact ⟨_, _, rfl, rfl, faultIn_forgetFaultWord _ _ _ s⟩

/-- Settles O5: an instruction that cannot fault has a meaning without its ignored bits; the others show them only where
they fault. -/
theorem ignoredBitsChangeNothing : Obligations.IgnoredBitsChangeNothing := fun s => by
  refine ⟨fun _ _ _ _ _ => rfl, fun _ _ _ _ _ => rfl, fun _ _ _ _ => rfl, fun _ _ _ _ _ => rfl,
    fun _ _ _ _ _ => rfl, fun _ _ _ _ => rfl, fun _ _ => ⟨rfl, rfl, rfl, rfl⟩, ?puts, ?putsp, ?trap, ?rti, ?res⟩
  case puts | putsp => exact fun _ _ => ⟨_, _, rfl, rfl, scan_forgetFaultWord _ _ _ _ _ s⟩
  case trap => exact fun x y v => execTrap_forgetFaultWord x y v s
  case rti | res => exact fun _ _ => ⟨_, _, rfl, rfl, faultIn_forgetFaultWord _ _ _ s⟩

end Sys2Proof.Machine
end

section
/-! PROOF. The step (spec/40_fetch_execute.md R120 to R128): the fetch and the execution in RUNNING, what a faulting step
leaves (spec/60_exceptions.md R255), and the terminal states. -/

namespace Sys2Proof.Machine

variable {i : Instr} {s t u : State}

/-! ## Faulting steps -/

theorem takeFault_emitted (s : State) (reason : FaultReason) (word : Option Word) (addr : Word) :
    Emitted s (s.takeFault reason word addr) :=
  ⟨rfl, rfl, rfl, rfl, ⟨[], by simp⟩, fun _ _ _ => rfl, le_rfl, fun _ _ => rfl, id⟩

/-- Of what an instruction can do, only a fault ends in FAULTED, and only output and polls come before it. -/
theorem Executed.emitted_of_faulted {record : FaultRecord} (h : Executed i s t) (hs : s.run = .running)
    (ht : t.run = .faulted record) : Emitted s t := by
  have not_run (hrun : t.run = s.run) : False := by cases ht.symm.trans (hrun.trans hs)
  cases h with
  | faults r hu => exact hu.trans (faultIn_emitted _ i r)
  | halts => cases ht
  | emits _ _ hrun => exact (not_run hrun).elim
  | defines _ _ _ hu => exact (not_run hu.run).elim
  | stores _ _ _ hu => exact (not_run hu.run).elim
  | receives _ _ _ _ hrun => exact (not_run hrun).elim
  | jumps | calls => exact (not_run rfl).elim

/-- A step that faults leaves what output and polls leave, but for the fetch's increment of PC. -/
theorem step_emitted_of_faulted {record : FaultRecord} (hs : s.run = .running) (h : step s = .next t)
    (ht : t.run = .faulted record) :
    ∃ u pc, Polled s u ∧ Emitted (u.setPc pc) t := by
  obtain ⟨hstop, -⟩ | ⟨w, u, -, hread, e⟩ | ⟨r, u, -, hread, e⟩ := step_cases s
  · exact absurd hs hstop
  · have hu := (memRead_ok hread).2
    exact ⟨u, _, hu, (executed_of_exec (e.symm.trans h)).emitted_of_faulted (hu.run.trans hs) ht⟩
  · obtain ⟨-, -, -, hu⟩ := memRead_fail hread
    obtain rfl := Host.Outcome.next.inj (e.symm.trans h)
    exact ⟨u, u.pc, hu, takeFault_emitted u _ _ _⟩

/-- Settles O28: the fetch changes no more than a poll does, and a faulting execution only adds output and polls. -/
theorem faultsLeaveRegistersFlagsMemory : Obligations.FaultsLeaveRegistersFlagsMemory := fun s t record hs h ht => by
  obtain ⟨u, pc, hu, hut⟩ := step_emitted_of_faulted hs h ht
  refine ⟨fun r => (hut.reg r).trans (hu.reg r), hut.cond.trans hu.cond, fun a hkbsr hkbdr => ?_⟩
  calc t.peek a = u.peek a := hut.elsewhere a (hu.cfg ▸ hkbsr) (hu.cfg ▸ hkbdr)
    _ = s.peek a := hu.elsewhere a hkbsr hkbdr

/-! ## Fetch and execution -/

theorem step_of_memRead_ok {w : Word} (hs : s.run = .running) (hread : s.memRead s.pc = .ok w u) :
    step s = exec (decode w) (u.setPc (s.pc + 1#16)) := by
  simp [step, State.fetch, hs, hread]

/-- R127: the record's address is PC, which a failing read leaves. -/
theorem step_of_memRead_fail {r : FaultReason} (hs : s.run = .running) (hread : s.memRead s.pc = .fail r u) :
    step s = .next (u.takeFault r none s.pc) := by
  obtain ⟨-, -, -, hu⟩ := memRead_fail hread
  simp [step, State.fetch, State.faultInFetch, hs, hread, hu.pc]

/-- Settles O15: by the outcome of the fetch read; the encoding of a well-formed instruction decodes to it. -/
theorem stepRunsTheDecodedInstruction : Obligations.StepRunsTheDecodedInstruction := fun s hs => by
  refine ⟨step_of_pc_ne_kbsr hs, fun i hwf hpc hword => ?_, fun _ _ => step_of_memRead_ok hs,
    fun _ _ => step_of_memRead_fail hs⟩
  have hstep := step_of_pc_ne_kbsr hs hpc
  rwa [hword, decode_encode hwf] at hstep

/-! ## The terminal states -/

theorem step_of_run_ne_running (h : s.run ≠ .running) : step s = .next s := by
  obtain ⟨-, e⟩ | ⟨_, _, hs, -⟩ | ⟨_, _, hs, -⟩ := step_cases s
  · exact e
  · exact absurd hs h
  · exact absurd hs h

theorem stepResult_of_ne_running {before : RunState} (h : before ≠ .running) (after : RunState) :
    stepResult before after = .halted := by
  cases before with
  | running => exact absurd rfl h
  | halted | faulted => rfl

theorem isHalted_eq_true_iff (s : State) : s.isHalted = true ↔ s.run ≠ .running := by
  unfold State.isHalted
  cases s.run with
  | running | halted | faulted => simp

/-- Settles O16: a step, its result and `is_halted` go by whether the run state is RUNNING. -/
theorem terminalStatesStay : Obligations.TerminalStatesStay := fun s =>
  ⟨fun h => ⟨step_of_run_ne_running h, stepResult_of_ne_running h _, (isHalted_eq_true_iff s).2 h⟩,
    fun h => Bool.eq_false_iff.2 fun hhalted => (isHalted_eq_true_iff s).1 hhalted h⟩

end Sys2Proof.Machine
end

section
/-! PROOF. The operate instructions (spec/41_operate.md R140 to R145): each writes a value of its sources to DR, with the
flags of that value, and nothing else. -/

namespace Sys2Proof

/-- Settles O4: the decoder computes on the eleven words. -/
theorem wordsOfTheSpecDecode : Obligations.WordsOfTheSpecDecode := by
  unfold Obligations.WordsOfTheSpecDecode
  decide

end Sys2Proof

namespace Sys2Proof.Machine

/-! ## The write of DR -/

/-- R30, R145: writing DR sets the flags of the value written, and changes nothing else. -/
theorem writeDR_definesRegister (s : State) (dr : RegIdx) (v : Word) : DefinesRegister dr v s (s.writeDR dr v) :=
  ⟨reg_writeDR_self s dr v, (writeDR_cond s dr v).symm ▸ flagsOf_nzp v, rfl, fun _ hne => reg_writeDR_ne s v hne,
    fun _ => rfl, rfl, rfl, rfl, rfl⟩

/-! ## What each instruction writes -/

section

variable (dr sr sr1 sr2 : RegIdx) (imm : BitVec 5) (s : State)

theorem exec_addReg (x : BitVec 2) : exec (.addReg dr sr1 x sr2) s = .next (s.writeDR dr (s.reg sr1 + s.reg sr2)) := rfl

theorem exec_addImm : exec (.addImm dr sr1 imm) s = .next (s.writeDR dr (s.reg sr1 + sext imm)) := rfl

theorem exec_andReg (x : BitVec 2) : exec (.andReg dr sr1 x sr2) s = .next (s.writeDR dr (s.reg sr1 &&& s.reg sr2)) :=
  rfl

theorem exec_andImm : exec (.andImm dr sr1 imm) s = .next (s.writeDR dr (s.reg sr1 &&& sext imm)) := rfl

/-- R144: the complement is the exclusive or with 0xFFFF, the word of sixteen ones. -/
theorem exec_notReg (x : BitVec 6) : exec (.notReg dr sr x) s = .next (s.writeDR dr (~~~s.reg sr)) := by
  have hxor : s.reg sr ^^^ 0xFFFF#16 = ~~~s.reg sr := BitVec.xor_allOnes
  rw [← hxor]
  rfl

end

/-! ## The statements -/

/-- Settles O31: ADD writes DR once, with the sum of the two sources. -/
theorem addRegisterAddsModulo65536 : Obligations.AddRegisterAddsModulo65536 := fun dr sr1 x sr2 s =>
  ⟨decode_encode (i := .addReg dr sr1 x sr2) rfl, _, exec_addReg dr sr1 sr2 s x, writeDR_definesRegister s dr _⟩

/-- Settles O32: ADD writes DR once, with the sum of the source and the extended immediate. -/
theorem addImmediateAddsModulo65536 : Obligations.AddImmediateAddsModulo65536 := fun dr sr1 imm s =>
  ⟨decode_encode (i := .addImm dr sr1 imm) rfl, _, exec_addImm dr sr1 imm s, writeDR_definesRegister s dr _⟩

/-- Settles O33: AND writes DR once, with the bitwise AND of the two sources. -/
theorem andRegisterAndsTheSources : Obligations.AndRegisterAndsTheSources := fun dr sr1 x sr2 s =>
  ⟨decode_encode (i := .andReg dr sr1 x sr2) rfl, _, exec_andReg dr sr1 sr2 s x, writeDR_definesRegister s dr _⟩

/-- Settles O34: AND writes DR once, with the bitwise AND of the source and the extended immediate. -/
theorem andImmediateAndsTheExtendedField : Obligations.AndImmediateAndsTheExtendedField := fun dr sr1 imm s =>
  ⟨decode_encode (i := .andImm dr sr1 imm) rfl, _, exec_andImm dr sr1 imm s, writeDR_definesRegister s dr _⟩

/-- Settles O35: NOT writes DR once, with the complement of the source. -/
theorem notComplementsTheSource : Obligations.NotComplementsTheSource := fun dr sr x s =>
  ⟨decode_encode (i := .notReg dr sr x) rfl, _, exec_notReg dr sr s x, writeDR_definesRegister s dr _⟩

end Sys2Proof.Machine
end

section
/-! PROOF. Loads, stores and LEA (spec/42_load_store.md R160 to R167): an instruction that reads memory goes on with the
word its read gives, or ends in the fault of the read (R251, R254). -/

namespace Sys2Proof.Machine

/-! ## One read of an instruction -/

section

variable {s t u : State} {i : Instr} {a v : Word} {k : Word → State → State} {r : FaultReason}

theorem readThen_of_ok (h : s.memRead a = .ok v u) : s.readThen i a k = k v u := by
  simp [State.readThen, h]

theorem readThen_of_fail (h : s.memRead a = .fail r u) : s.readThen i a k = u.faultIn i r := by
  simp [State.readThen, h]

/-- R34, R255: a fault in execute writes the record and nothing else. -/
theorem faultIn_faultsWith (s : State) (i : Instr) (r : FaultReason) :
    FaultsWith { reason := r, word := some (encode i), addr := s.pc - 1#16 } s (s.faultIn i r) :=
  ⟨rfl, fun _ => rfl, rfl, rfl, fun _ => rfl, rfl, rfl, rfl⟩

/-- A read that fails, after the polls of earlier reads, is the instruction's fault: polls leave PC, and so the fetch
address of the record. -/
theorem readThen_faultsWith (hpolled : Polled s t) (h : t.memRead a = .fail r u) :
    r = .adapterContract ∧
    FaultsWith { reason := r, word := some (encode i), addr := s.pc - 1#16 } u (t.readThen i a k) := by
  obtain ⟨-, hreason, -, hu⟩ := memRead_fail h
  rw [readThen_of_fail h, ← (hpolled.trans hu).pc]
  exact ⟨hreason, faultIn_faultsWith u i r⟩

/-- The three ways an instruction with one read goes: away from KBSR, through the hook, and in a fault of the read.
`P v u` is what its continuation does with the word `v` from the state `u` that the read leaves. -/
theorem exec_of_readThen {P : Word → State → State → Prop} (hexec : exec i s = .next (s.readThen i a k))
    (hk : ∀ v u, Polled s u → P v u (k v u)) :
    (a ≠ s.cfg.kbsrAddr → ∃ t, exec i s = .next t ∧ P (s.peek a) s t) ∧
    (∀ v u, s.memRead a = .ok v u → ∃ t, exec i s = .next t ∧ P v u t) ∧
    (∀ r u, s.memRead a = .fail r u → r = .adapterContract ∧
      ∃ t, exec i s = .next t ∧ FaultsWith { reason := r, word := some (encode i), addr := s.pc - 1#16 } u t) := by
  have hok : ∀ v u, s.memRead a = .ok v u → ∃ t, exec i s = .next t ∧ P v u t := fun v u hread =>
    ⟨k v u, by rw [hexec, readThen_of_ok hread], hk v u (memRead_ok hread).2⟩
  refine ⟨fun ha => hok _ _ (memRead_of_ne s ha), hok, fun r u hread => ?_⟩
  obtain ⟨hreason, hfault⟩ := readThen_faultsWith (.refl s) hread
  exact ⟨hreason, _, hexec, hfault⟩

end

/-! ## What each instruction reads and writes -/

section

variable (dr sr base : RegIdx) (off : BitVec 9) (off' : BitVec 6) (s : State)

theorem exec_ld : exec (.ld dr off) s =
    .next (s.readThen (.ld dr off) (s.pc + sext off) fun v t => t.writeDR dr v) := rfl

theorem exec_ldi : exec (.ldi dr off) s =
    .next (s.readThen (.ldi dr off) (s.pc + sext off) fun a t =>
      t.readThen (.ldi dr off) a fun v u => u.writeDR dr v) := rfl

theorem exec_ldr : exec (.ldr dr base off') s =
    .next (s.readThen (.ldr dr base off') (s.reg base + sext off') fun v t => t.writeDR dr v) := rfl

theorem exec_lea : exec (.lea dr off) s = .next (s.writeDR dr (s.pc + sext off)) := rfl

theorem exec_st : exec (.st sr off) s = .next (s.memWrite (s.pc + sext off) (s.reg sr)) := rfl

theorem exec_sti : exec (.sti sr off) s =
    .next (s.readThen (.sti sr off) (s.pc + sext off) fun a t => t.memWrite a (t.reg sr)) := rfl

theorem exec_str : exec (.str sr base off') s = .next (s.memWrite (s.reg base + sext off') (s.reg sr)) := rfl

end

/-! ## The statements -/

/-- Settles O36: LD goes on from its one read with a write of DR. -/
theorem ldLoadsPcRelative : Obligations.LdLoadsPcRelative := fun dr off s =>
  ⟨decode_encode (i := .ld dr off) rfl,
    exec_of_readThen (exec_ld dr off s) fun v u _ => writeDR_definesRegister u dr v⟩

/-- Settles O37: the second read starts in the state the first one leaves, and away from KBSR both leave `s`. -/
theorem ldiLoadsThroughAPointer : Obligations.LdiLoadsThroughAPointer := fun dr off s => by
  have hpointer {a : Word} {u : State} (hread : s.memRead (s.pc + sext off) = .ok a u) :
      exec (.ldi dr off) s = .next (u.readThen (.ldi dr off) a fun v t => t.writeDR dr v) := by
    rw [exec_ldi, readThen_of_ok hread]
  have hok (a : Word) (u : State) (v : Word) (u' : State) (hread : s.memRead (s.pc + sext off) = .ok a u)
      (hread' : u.memRead a = .ok v u') : ∃ t, exec (.ldi dr off) s = .next t ∧ DefinesRegister dr v u' t :=
    ⟨u'.writeDR dr v, by rw [hpointer hread, readThen_of_ok hread'], writeDR_definesRegister u' dr v⟩
  refine ⟨decode_encode (i := .ldi dr off) rfl, fun ha hpeek => ?_, hok, fun r u hread => ?_,
    fun a u r u' hread hread' => ?_⟩
  · exact hok _ _ _ _ (memRead_of_ne s ha) (memRead_of_ne s hpeek)
  · obtain ⟨hreason, hfault⟩ := readThen_faultsWith (.refl s) hread
    exact ⟨hreason, _, exec_ldi dr off s, hfault⟩
  · obtain ⟨hreason, hfault⟩ := readThen_faultsWith (memRead_ok hread).2 hread'
    exact ⟨hreason, _, hpointer hread, hfault⟩

/-- Settles O38: the address of LDR's one read is of the state before DR is written. -/
theorem ldrLoadsFromBaseAndOffset : Obligations.LdrLoadsFromBaseAndOffset := fun dr base off s =>
  ⟨decode_encode (i := .ldr dr base off) rfl,
    exec_of_readThen (exec_ldr dr base off s) fun v u _ => writeDR_definesRegister u dr v⟩

/-- Settles O41: STI goes on from its one read with a plain write of SR, which polls do not change. -/
theorem stiStoresThroughAPointer : Obligations.StiStoresThroughAPointer := fun sr off s =>
  ⟨decode_encode (i := .sti sr off) rfl,
    exec_of_readThen (P := fun a => StoresWord a (s.reg sr)) (exec_sti sr off s) fun a u hu =>
      hu.reg sr ▸ memWrite_storesWord u a (u.reg sr)⟩

/-- Settles O39: LEA writes DR once, with the address. -/
theorem leaWritesTheAddressAndFlags : Obligations.LeaWritesTheAddressAndFlags := fun dr off s =>
  ⟨decode_encode (i := .lea dr off) rfl, _, exec_lea dr off s, writeDR_definesRegister s dr _⟩

/-- Settles O40: ST writes memory once, plainly, at an address relative to PC. -/
theorem stStoresPcRelative : Obligations.StStoresPcRelative := fun sr off s =>
  ⟨decode_encode_st sr off, _, exec_st sr off s, memWrite_storesWord s _ _⟩

/-- Settles O42: STR writes memory once, plainly, at an address relative to the base register. -/
theorem strStoresAtBaseAndOffset : Obligations.StrStoresAtBaseAndOffset := fun sr base off s =>
  ⟨decode_encode (i := .str sr base off) rfl, _, exec_str sr base off s, memWrite_storesWord s _ _⟩

end Sys2Proof.Machine
end

section
/-! PROOF. Control transfer (spec/43_control.md R190 to R193): BR, JMP and RET write PC and nothing else; JSR and JSRR
write PC and the link register R7 and nothing else. -/

namespace Sys2Proof.Machine

/-! ## The writes of PC and of the link register -/

theorem setPc_jumpsTo (s : State) (target : Word) : JumpsTo target s (s.setPc target) :=
  ⟨rfl, fun _ => rfl, rfl, fun _ => rfl, rfl, rfl, rfl, rfl⟩

/-- R190: a branch writes PC when it is taken, and otherwise nothing. -/
theorem branch_jumpsTo (s : State) (mask : BitVec 3) (off : BitVec 9) :
    JumpsTo (if mask &&& s.cond ≠ 0#3 then s.pc + sext off else s.pc) s (s.branch mask off) := by
  obtain ⟨htaken, e⟩ | ⟨huntaken, e⟩ := branch_cases s mask off
  · rw [e, if_pos htaken]
    exact setPc_jumpsTo s _
  · rw [e, if_neg (not_not_intro huntaken)]
    exact setPc_jumpsTo s s.pc

/-- R192, R193: the link is the incremented PC, whatever the target. -/
theorem link_callsTo (s : State) (target : Word) :
    CallsTo s.pc target s ((s.setReg linkReg s.pc).setPc target) :=
  ⟨reg_setReg_self s linkReg s.pc, rfl, fun _ hne => reg_setReg_ne s s.pc hne, rfl, fun _ => rfl, rfl, rfl, rfl, rfl⟩

/-! ## What each instruction goes to -/

section

variable (mask : BitVec 3) (off : BitVec 9) (far : BitVec 11) (ign : BitVec 3) (base : RegIdx) (ign' : BitVec 6)
  (s : State)

theorem exec_br : exec (.br mask off) s = .next (s.branch mask off) := rfl

/-- R103: the row that a mask has branches on that mask. -/
theorem exec_brOfMask : exec (brOfMask mask off) s = .next (s.branch mask off) := by
  obtain ⟨m⟩ := mask
  fin_cases m <;> rfl

theorem exec_jmp : exec (.jmp ign base ign') s = .next (s.setPc (s.reg base)) := rfl

theorem exec_ret : exec (.ret ign ign') s = .next (s.setPc (s.reg 7#3)) := rfl

theorem exec_jsr : exec (.jsr far) s = .next ((s.setReg linkReg s.pc).setPc (s.pc + sext far)) := rfl

end

section

variable {s : State} (ign : BitVec 2) (base : RegIdx) (ign' : BitVec 6)

/-- D12: the base is read after the link is written. -/
theorem exec_jsrr_of_linkFirst (h : s.cfg.jsrrOrder = .linkFirst) :
    exec (.jsrr ign base ign') s =
      .next ((s.setReg linkReg s.pc).setPc ((s.setReg linkReg s.pc).reg base)) := by
  simp only [exec, execJsrr, h]

/-- D12: the base is read before the link is written. -/
theorem exec_jsrr_of_baseFirst (h : s.cfg.jsrrOrder = .baseFirst) :
    exec (.jsrr ign base ign') s = .next ((s.setReg linkReg s.pc).setPc (s.reg base)) := by
  simp only [exec, execJsrr, h]

/-- R193: the two orders agree on a base that the link does not overwrite. -/
theorem exec_jsrr_of_ne {base : RegIdx} (hbase : base ≠ linkReg) :
    exec (.jsrr ign base ign') s = .next ((s.setReg linkReg s.pc).setPc (s.reg base)) := by
  cases horder : s.cfg.jsrrOrder with
  | linkFirst => rw [exec_jsrr_of_linkFirst ign base ign' horder, reg_setReg_ne s s.pc hbase]
  | baseFirst => exact exec_jsrr_of_baseFirst ign base ign' horder

end

/-! ## The statements -/

/-- Settles O43: each listed row is the one its mask has, so it has the mask's word and branches on the mask. -/
theorem brBranchesOnTheMaskedFlags : Obligations.BrBranchesOnTheMaskedFlags := fun off s => by
  refine ⟨fun i mask hrow => ?_, fun mask => ⟨_, exec_br mask off s, branch_jumpsTo s mask off⟩⟩
  obtain rfl : i = brOfMask mask off := by fin_cases hrow <;> rfl
  exact ⟨decode_encode_br mask off, _, exec_brOfMask mask off s, branch_jumpsTo s mask off⟩

/-- Settles O46: JSRR links and jumps; only with a base of R7 does its target depend on the order of the two. -/
theorem jsrrLinksAndGoesToTheBase : Obligations.JsrrLinksAndGoesToTheBase := fun x base x' s => by
  refine ⟨decode_encode (i := .jsrr x base x') rfl, fun hbase => ?_, fun horder => ?_, fun horder => ?_⟩
  · exact ⟨_, exec_jsrr_of_ne x x' hbase, link_callsTo s _⟩
  · have hexec := exec_jsrr_of_linkFirst x linkReg x' horder
    rw [reg_setReg_self] at hexec
    exact ⟨_, hexec, link_callsTo s s.pc⟩
  · exact ⟨_, exec_jsrr_of_baseFirst x 7#3 x' horder, link_callsTo s _⟩

/-- Settles O44: both write PC once, and the row of a JMP word goes by whether its base is R7. -/
theorem jmpAndRetGoToTheBase : Obligations.JmpAndRetGoToTheBase := fun x base x' s =>
  ⟨fun hbase => (decode_encode_jmp x base x').trans (if_neg hbase), decode_encode (i := .ret x x') rfl,
    ⟨_, exec_jmp x base x' s, setPc_jumpsTo s _⟩, _, exec_ret x x' s, setPc_jumpsTo s _⟩

/-- Settles O45: JSR links and jumps to an address relative to the incremented PC. -/
theorem jsrLinksAndGoesPcRelative : Obligations.JsrLinksAndGoesPcRelative := fun off s =>
  ⟨decode_encode (i := .jsr off) rfl, _, exec_jsr off s, link_callsTo s _⟩

end Sys2Proof.Machine
end

section
/-! PROOF. TRAP and the services without a loop (spec/44_trap.md R210 to R212, R214, R216, R217). -/

namespace Sys2Proof.Machine

/-! ## Output -/

/-- The state with more events output, and nothing else changed. -/
def State.output (s : State) (events : List OutEvent) : State := { s with out := s.out ++ events }

theorem output_outputs (s : State) (events : List OutEvent) : Outputs events s (s.output events) :=
  ⟨rfl, fun _ => rfl, rfl, rfl, fun _ => rfl, rfl, rfl, rfl⟩

theorem writeChar_eq_output (s : State) (b : Byte) : s.writeChar b = s.output [.char b] := rfl

@[simp] theorem output_nil (s : State) : s.output [] = s := by simp [State.output]

@[simp] theorem output_output (s : State) (es es' : List OutEvent) : (s.output es).output es' = s.output (es ++ es') := by
  simp [State.output]

/-! ## The write of R0 -/

/-- The write of R0 that ends GETC and IN, after adapter calls and output that change nothing else. -/
theorem setReg_definesR0 {s u : State} (v : Word) (hu : u = { s with adapter := u.adapter, out := u.out }) :
    DefinesR0 v u s (u.setReg 0#3 v) := by
  refine ⟨reg_setReg_self u 0#3 v, fun r hr => ?_, ?_, ?_, fun a => ?_, ?_, ?_, rfl, rfl⟩
  · rw [reg_setReg_ne u v hr, hu]
    rfl
  all_goals
    rw [hu]
    rfl

/-! ## What each service does -/

section

variable (ign : BitVec 4) {s : State} {c : Byte}

theorem exec_getc_of_char (h : s.readChar.1 = some c) :
    exec (.getc ign) s = .next (s.readChar.2.setReg 0#3 (zext16 c)) := by
  simp only [exec, execGetc, State.trapGetc, h]

theorem exec_getc_of_no_char (h : s.readChar.1 = none) :
    exec (.getc ign) s = .next (s.readChar.2.setReg 0#3 s.cfg.noCharValue) := by
  simp only [exec, execGetc, State.trapGetc, h]

/-- The prompt is written before the read, which it does not affect. -/
theorem readChar_writeChars (s : State) (bs : List Byte) : (s.writeChars bs).readChar.1 = s.readChar.1 := rfl

theorem exec_inp_of_char (h : s.readChar.1 = some c) :
    exec (.inp ign) s =
      .next (((s.writeChars s.cfg.inPrompt).readChar.2.writeChar c).setReg 0#3 (zext16 c)) := by
  simp only [exec, execIn, State.trapIn, readChar_writeChars, h]

theorem exec_inp_of_no_char (h : s.readChar.1 = none) :
    exec (.inp ign) s = .next ((s.writeChars s.cfg.inPrompt).readChar.2.setReg 0#3 s.cfg.noCharValue) := by
  simp only [exec, execIn, State.trapIn, readChar_writeChars, h]

theorem exec_out (s : State) : exec (.out ign) s = .next (s.writeChar ((s.reg 0#3).extractLsb' 0 8)) := rfl

theorem exec_halt (s : State) : exec (.halt ign) s = .next s.trapHalt := rfl

end

/-! ## The service of a vector -/

/-- R34: the instruction shows in a fault by its word alone. -/
theorem faultIn_congr {i j : Instr} (h : encode i = encode j) (r : FaultReason) (s : State) :
    s.faultIn i r = s.faultIn j r := by
  simp only [State.faultIn, h]

theorem scan_congr {i j : Instr} (h : encode i = encode j) (emit : Word → State → State) (above : Nat) (a : Word)
    (s : State) : scan i emit above a s = scan j emit above a s := by
  fun_induction scan i emit above a s with
  | case1 above a s r u hread => rw [scan_of_fail j emit above hread, faultIn_congr h]
  | case2 above a s u hread => rw [scan_of_zero j emit above hread]
  | case3 a s v u hread hv => rw [scan_of_last j emit hread hv, faultIn_congr h]
  | case4 a s v u hread hv above ih => rw [scan_of_more j emit above hread hv, ih]

/-- R103, R210: the row that a vector has runs the vector's service. -/
theorem exec_trapOfVector (ign : BitVec 4) (vect : BitVec 8) (s : State) :
    exec (.trap ign vect) s = exec (trapOfVector ign vect) s := by
  fun_cases trapOfVector ign vect with
  | case1 | case2 | case4 | case6 =>
    subst vect
    rfl
  | case3 | case5 =>
    subst vect
    refine congrArg Host.Outcome.next (scan_congr ?_ _ _ _ s)
    rfl
  | case7 => rfl

theorem exec_trap_of_not_service (ign : BitVec 4) {vect : BitVec 8} (h : isServiceVector vect = false) (s : State) :
    exec (.trap ign vect) s = .next (s.faultIn (.trap ign vect) .unknownTrap) := by
  simp only [← Bool.not_eq_true, isServiceVector_iff, not_or] at h
  simp [exec, execTrap, trapService, State.trapUnknown, h]

/-! ## The statements -/

/-- Settles O47: each listed row is the one its vector has, and every other vector is the fault. -/
theorem trapRunsTheServiceOfItsVector : Obligations.TrapRunsTheServiceOfItsVector := fun x s => by
  refine ⟨fun v i hrow => ?_, fun v hv => ?_⟩
  · obtain rfl : i = trapOfVector x v := by fin_cases hrow <;> rfl
    exact ⟨decode_encode_trap x v, exec_trapOfVector x v s, (exec_next _ s).imp fun _ ⟨hnext, _⟩ => hnext⟩
  · have hservice : isServiceVector v = false := by
      simpa [← Bool.not_eq_true, isServiceVector_iff] using hv
    exact ⟨(decode_encode_trap x v).trans (trapOfVector_of_not_service x hservice), _,
      exec_trap_of_not_service x hservice s, faultIn_faultsWith s (.trap x v) .unknownTrap⟩

/-- Settles O48: GETC is one read of a character and one write of R0. -/
theorem getcReadsACharacterIntoR0 : Obligations.GetcReadsACharacterIntoR0 := fun x s => by
  refine ⟨fun c hc => ?_, fun hc => ?_⟩
  · exact ⟨_, exec_getc_of_char x hc, zext16_eq_append c ▸ setReg_definesR0 (zext16 c) rfl⟩
  · exact ⟨_, exec_getc_of_no_char x hc, setReg_definesR0 _ rfl⟩

/-- Settles O49: OUT outputs one event. -/
theorem outWritesR0LowByte : Obligations.OutWritesR0LowByte := fun x s => ⟨_, exec_out x s, output_outputs s _⟩

/-- Settles O52: IN outputs its prompt, reads, echoes what it read, and writes R0 once. -/
theorem inPromptsReadsAndEchoes : Obligations.InPromptsReadsAndEchoes := fun x s => by
  refine ⟨fun c hc => ?_, fun hc => ?_⟩
  · exact ⟨_, exec_inp_of_char x hc, zext16_eq_append c ▸ setReg_definesR0 (zext16 c) rfl⟩
  · exact ⟨_, exec_inp_of_no_char x hc, setReg_definesR0 _ rfl⟩

/-- Settles O55: HALT outputs the flush and enters HALTED, where a step changes nothing. -/
theorem haltFlushesAndHalts : Obligations.HaltFlushesAndHalts := fun x s => by
  have hhalted : s.trapHalt.run ≠ .running := nofun
  exact ⟨s.trapHalt, exec_halt x s, rfl, rfl, fun _ => rfl, rfl, rfl, fun _ => rfl, rfl, rfl, fun hs => hs ▸ rfl,
    step_of_run_ne_running hhalted, (isHalted_eq_true_iff _).2 hhalted⟩

end Sys2Proof.Machine
end

section
/-! PROOF. The string services PUTS and PUTSP (spec/44_trap.md R213, R215, R219): one word of their scan, and the scan of
a whole string. -/

namespace Sys2Proof.Machine

/-! ## One word of a scan from an address on -/

section

variable {i : Instr} {emit : Word → State → State} {a v : Word} {s u : State}

theorem scanFrom_of_zero (h : s.strRead a = .ok 0x0000#16 u) : scanFrom i emit a s = u := scan_of_zero i emit _ h

/-- Below 0xFFFF an address has one more address above it than the next one. -/
theorem scanFrom_of_more (h : s.strRead a = .ok v u) (hv : v ≠ 0x0000#16) (ha : a ≠ 0xFFFF#16) :
    scanFrom i emit a s = scanFrom i emit (a + 1#16) (emit v u) := by
  have habove : 0xFFFF - a.toNat = (0xFFFF - (a + 1#16).toNat) + 1 := by bv_omega
  rw [scanFrom, habove, scan_of_more i emit _ h hv]
  rfl

theorem scanFrom_of_last (h : s.strRead a = .ok v u) (hv : v ≠ 0x0000#16) (ha : a = 0xFFFF#16) :
    scanFrom i emit a s = (emit v u).faultIn i .stringWrap := by
  subst a
  exact scan_of_last i emit h hv

theorem scanFrom_of_fail {r : FaultReason} (h : s.strRead a = .fail r u) : scanFrom i emit a s = u.faultIn i r :=
  scan_of_fail i emit _ h

/-- R34: neither the read nor the write of a word moves PC, so the record of STRING_WRAP has the fetch address. -/
theorem scanFrom_wraps (hemit : ∀ v u, Emitted u (emit v u)) (h : s.strRead a = .ok v u) (hv : v ≠ 0x0000#16)
    (ha : a = 0xFFFF#16) :
    FaultsWith { reason := .stringWrap, word := some (encode i), addr := s.pc - 1#16 } (emit v u)
      (scanFrom i emit a s) := by
  have hpc : (emit v u).pc = s.pc := (hemit v u).pc.trans (strRead_ok h).2.pc
  rw [scanFrom_of_last h hv ha, ← hpc]
  exact faultIn_faultsWith _ i .stringWrap

theorem scanFrom_fails {r : FaultReason} (h : s.strRead a = .fail r u) :
    FaultsWith { reason := r, word := some (encode i), addr := s.pc - 1#16 } u (scanFrom i emit a s) := by
  obtain ⟨-, -, -, hu⟩ := strRead_fail h
  rw [scanFrom_of_fail h, ← hu.pc]
  exact faultIn_faultsWith u i r

end

section

variable {a : Word} {s : State}

theorem strRead_of_plain (h : s.cfg.trapStringRead = .plain) : s.strRead a = .ok (s.peek a) s := by
  simp only [State.strRead, h]

theorem strRead_of_hooked (h : s.cfg.trapStringRead = .hooked) : s.strRead a = s.memRead a := by
  simp only [State.strRead, h]

/-- D10: away from KBSR the two kinds of string read are one. -/
theorem strRead_of_ne (h : a ≠ s.cfg.kbsrAddr) : s.strRead a = .ok (s.peek a) s := by
  cases hkind : s.cfg.trapStringRead with
  | plain => exact strRead_of_plain hkind
  | hooked => rw [strRead_of_hooked hkind, memRead_of_ne s h]

end

/-! ## The events of a word -/

/-- R213: the output of PUTS for a word. -/
def lowEvents (v : Word) : List OutEvent := [.char (v.extractLsb' 0 8)]

/-- R215: the output of PUTSP for a word. -/
def packedEvents (v : Word) : List OutEvent :=
  .char (v.extractLsb' 0 8) :: if v.extractLsb' 8 8 = 0x00#8 then [] else [.char (v.extractLsb' 8 8)]

theorem emitLow_eq_output (v : Word) (s : State) : emitLow v s = s.output (lowEvents v) := rfl

theorem emitPacked_of_high_zero {v : Word} (h : v.extractLsb' 8 8 = 0x00#8) (s : State) :
    emitPacked v s = s.writeChar (v.extractLsb' 0 8) := if_pos h

theorem emitPacked_of_high_ne_zero {v : Word} (h : v.extractLsb' 8 8 ≠ 0x00#8) (s : State) :
    emitPacked v s = (s.writeChar (v.extractLsb' 0 8)).writeChar (v.extractLsb' 8 8) := if_neg h

theorem emitPacked_eq_output (v : Word) (s : State) : emitPacked v s = s.output (packedEvents v) := by
  by_cases h : v.extractLsb' 8 8 = 0x00#8
  · rw [emitPacked_of_high_zero h, packedEvents, if_pos h, writeChar_eq_output]
  · rw [emitPacked_of_high_ne_zero h, packedEvents, if_neg h, writeChar_eq_output, writeChar_eq_output, output_output]
    rfl

/-! ## A whole string -/

/-- The words are nonzero and stand in memory from the address on, and a scan of them and of the word after them reads
plainly, or does not pass KBSR. -/
structure StringAt (s : State) (a : Word) (vs : List Word) : Prop where
  nonzero : ∀ v ∈ vs, v ≠ 0x0000#16
  stored : ∀ k (h : k < vs.length), s.peek (a + BitVec.ofNat 16 k) = vs[k]
  plain : s.cfg.trapStringRead = .plain ∨ ∀ k, k ≤ vs.length → a.toNat + k < 65536 →
    a + BitVec.ofNat 16 k ≠ s.cfg.kbsrAddr

section

variable {i : Instr} {emit : Word → State → State} {events : Word → List OutEvent} {s : State} {a : Word}
  {vs : List Word}

/-- A read of the string, whatever of it is already output. -/
theorem StringAt.strRead (h : StringAt s a vs) (es : List OutEvent) {k : Nat} (hk : k ≤ vs.length)
    (hin : a.toNat + k < 65536) :
    (s.output es).strRead (a + BitVec.ofNat 16 k) = .ok (s.peek (a + BitVec.ofNat 16 k)) (s.output es) := by
  obtain hplain | haway := h.plain
  · exact strRead_of_plain hplain
  · exact strRead_of_ne (haway k hk hin)

theorem StringAt.strRead_word (h : StringAt s a vs) (es : List OutEvent) {k : Nat} (hk : k < vs.length)
    (hin : a.toNat + k < 65536) :
    (s.output es).strRead (a + BitVec.ofNat 16 k) = .ok vs[k] (s.output es) := by
  rw [h.strRead es hk.le hin, h.stored k hk]

/-- The output of one more word of the string. -/
theorem output_word (hemit : ∀ v u, emit v u = u.output (events v)) {k : Nat} (hk : k < vs.length) :
    emit vs[k] (s.output ((vs.take k).flatMap events)) = s.output ((vs.take (k + 1)).flatMap events) := by
  rw [hemit, output_output, List.take_succ_eq_append_getElem hk, List.flatMap_append, List.flatMap_singleton]

/-- The scan after the first `k` words of the string, by induction on `k`. -/
theorem scanFrom_take (hemit : ∀ v u, emit v u = u.output (events v)) (h : StringAt s a vs) {k : Nat}
    (hk : k ≤ vs.length) (hin : a.toNat + k < 65536) :
    scanFrom i emit a s = scanFrom i emit (a + BitVec.ofNat 16 k) (s.output ((vs.take k).flatMap events)) := by
  induction k with
  | zero => simp
  | succ k ih =>
    have hread := h.strRead_word ((vs.take k).flatMap events) hk (by omega)
    have hbelow : a + BitVec.ofNat 16 k ≠ 0xFFFF#16 := by bv_omega
    have hnext : a + BitVec.ofNat 16 k + 1#16 = a + BitVec.ofNat 16 (k + 1) := by
      rw [BitVec.ofNat_add, BitVec.add_assoc]
    rw [ih (by omega) (by omega), scanFrom_of_more hread (h.nonzero _ (List.getElem_mem hk)) hbelow, hnext,
      output_word hemit hk]

/-- A string that a zero word ends within memory. -/
theorem scanFrom_of_terminated (hemit : ∀ v u, emit v u = u.output (events v)) (h : StringAt s a vs)
    (hlen : a.toNat + vs.length < 65536) (hzero : s.peek (a + BitVec.ofNat 16 vs.length) = 0x0000#16) :
    scanFrom i emit a s = s.output (vs.flatMap events) := by
  have hread := h.strRead (vs.flatMap events) le_rfl hlen
  rw [hzero] at hread
  rw [scanFrom_take hemit h le_rfl hlen, List.take_length, scanFrom_of_zero hread]

/-- A string whose last word is the one at 0xFFFF. -/
theorem scanFrom_of_unterminated (hemit : ∀ v u, emit v u = u.output (events v)) (h : StringAt s a vs)
    (hlen : a.toNat + vs.length = 65536) :
    scanFrom i emit a s = (s.output (vs.flatMap events)).faultIn i .stringWrap := by
  obtain ⟨k, hk⟩ : ∃ k, vs.length = k + 1 := Nat.exists_eq_add_one.2 (by omega)
  have hlast : k < vs.length := by omega
  have hread := h.strRead_word ((vs.take k).flatMap events) hlast (by omega)
  have htop : a + BitVec.ofNat 16 k = 0xFFFF#16 := by bv_omega
  rw [scanFrom_take hemit h hlast.le (by omega),
    scanFrom_of_last hread (h.nonzero _ (List.getElem_mem hlast)) htop, output_word hemit hlast, ← hk,
    List.take_length]

/-- Both endings of a string service. -/
theorem exec_writes_string (hexec : exec i s = .next (scanFrom i emit a s))
    (hemit : ∀ v u, emit v u = u.output (events v)) (h : StringAt s a vs) :
    (a.toNat + vs.length < 65536 → s.peek (a + BitVec.ofNat 16 vs.length) = 0x0000#16 →
      ∃ t, exec i s = .next t ∧ Outputs (vs.flatMap events) s t) ∧
    (a.toNat + vs.length = 65536 →
      ∃ u t, exec i s = .next t ∧ Outputs (vs.flatMap events) s u ∧
        FaultsWith { reason := .stringWrap, word := some (encode i), addr := s.pc - 1#16 } u t) := by
  refine ⟨fun hlen hzero => ?_, fun hlen => ?_⟩
  · rw [hexec, scanFrom_of_terminated hemit h hlen hzero]
    exact ⟨_, rfl, output_outputs s _⟩
  · rw [hexec, scanFrom_of_unterminated hemit h hlen]
    exact ⟨s.output (vs.flatMap events), _, rfl, output_outputs s _, faultIn_faultsWith _ i .stringWrap⟩

end

/-! ## The statements -/

theorem exec_puts (ign : BitVec 4) (s : State) :
    exec (.puts ign) s = .next (scanFrom (.puts ign) emitLow (s.reg 0#3) s) := rfl

theorem exec_putsp (ign : BitVec 4) (s : State) :
    exec (.putsp ign) s = .next (scanFrom (.putsp ign) emitPacked (s.reg 0#3) s) := rfl

/-- Settles O50: by the four ways the scan of one word goes. -/
theorem putsIsTheLoopOfTheSpec : Obligations.PutsIsTheLoopOfTheSpec := fun x =>
  ⟨exec_puts x, fun _ _ => ⟨strRead_of_plain, strRead_of_hooked, fun _ => scanFrom_of_zero,
    fun _ _ => scanFrom_of_more, fun _ _ => scanFrom_wraps emitLow_emitted, fun _ _ => scanFrom_fails⟩⟩

/-- Settles O53: by the four ways the scan of one word goes, and the two that its output goes. -/
theorem putspIsTheLoopOfTheSpec : Obligations.PutspIsTheLoopOfTheSpec := fun x =>
  ⟨exec_putsp x, fun _ s => ⟨fun h => emitPacked_of_high_zero h s, fun h => emitPacked_of_high_ne_zero h s⟩,
    fun _ _ => ⟨fun _ => scanFrom_of_zero, fun _ _ => scanFrom_of_more,
      fun _ _ => scanFrom_wraps emitPacked_emitted, fun _ _ => scanFrom_fails⟩⟩

/-- Settles O51: each word of the string outputs one event. -/
theorem putsWritesTheString : Obligations.PutsWritesTheString := fun x s vs hne hstored hplain => by
  have hevents : (vs.map fun v => .char (v.extractLsb' 0 8)) = vs.flatMap lowEvents := List.map_eq_flatMap
  rw [hevents]
  exact exec_writes_string (exec_puts x s) emitLow_eq_output ⟨hne, hstored, hplain⟩

/-- Settles O54: each word of the string outputs one event or two. -/
theorem putspWritesTheString : Obligations.PutspWritesTheString := fun x s _ hne hstored hplain =>
  exec_writes_string (exec_putsp x s) emitPacked_eq_output ⟨hne, hstored, hplain⟩

end Sys2Proof.Machine
end

section
/-! PROOF. The reserved opcodes (spec/45_reserved.md R240, R241): each word decodes to its row, whose whole effect is the
record of its fault. -/

namespace Sys2Proof.Machine

section

variable (ign : BitVec 12) (s : State)

theorem exec_rti : exec (.rti ign) s = .next (s.faultIn (.rti ign) .reservedRti) := rfl

theorem exec_res : exec (.res ign) s = .next (s.faultIn (.res ign) .reservedRes) := rfl

end

/-- Settles O56: RTI is a fault in execute and nothing else. -/
theorem rtiFaults : Obligations.RtiFaults := fun x s =>
  ⟨decode_encode (i := .rti x) rfl, _, exec_rti x s, faultIn_faultsWith s (.rti x) .reservedRti⟩

/-- Settles O57: RES is a fault in execute and nothing else. -/
theorem resFaults : Obligations.ResFaults := fun x s =>
  ⟨decode_encode (i := .res x) rfl, _, exec_res x s, faultIn_faultsWith s (.res x) .reservedRes⟩

end Sys2Proof.Machine
end

section
/-! PROOF. `new`, the only reset (spec/70_reset_and_hazards.md R281, R282): the words of an image that fits are its
machine's, and no other word of memory changes. -/

namespace Sys2Proof.Machine

/-! ## The words of an image in memory -/

theorem Memory.read_writeWords_above {m : Memory} {a b : Nat} {ws : List Word} (h : a + ws.length ≤ b) :
    Memory.read (Memory.writeWords m a ws) b = Memory.read m b := by
  induction ws generalizing m a with
  | nil => rfl
  | cons w ws ih =>
    rw [List.length_cons] at h
    rw [Memory.writeWords, ih (by omega), Memory.read_write_ne (by omega)]

/-- The words after a word of the image stand above it, so they leave it as it was written. -/
theorem Memory.read_writeWords_getElem {m : Memory} {a k : Nat} {ws : List Word} (hk : k < ws.length) :
    Memory.read (Memory.writeWords m a ws) (a + k) = ws[k] := by
  induction ws generalizing m a k with
  | nil => simp at hk
  | cons w ws ih =>
    rw [Memory.writeWords]
    cases k with
    | zero =>
      rw [Nat.add_zero a, Memory.read_writeWords_below (Nat.lt_add_one a), Memory.read_write_self,
        List.getElem_cons_zero]
    | succ k =>
      have haddr : a + (k + 1) = a + 1 + k := by omega
      rw [haddr, ih (Nat.lt_of_succ_lt_succ hk), List.getElem_cons_succ]

/-! ## The machine of an image -/

/-- The machine that `new` builds of an image that fits (R281). -/
def NewParams.machineOf (p : NewParams) (origin : Word) (words : List Word) : State where
  regs := p.initGpr
  pc := origin
  cond := p.initCond
  run := .running
  mem := Memory.writeWords p.initMem origin.toNat words
  cfg := p.cfg
  adapter := p.adapter
  out := []

variable {p : NewParams} {origin : Word} {words : List Word}

theorem new_of_fits (h : origin.toNat + words.length ≤ 65536) :
    new p { origin, words } = .next (p.machineOf origin words) := if_neg h.not_gt

theorem new_of_runs_past (h : 65536 < origin.toNat + words.length) :
    new p { origin, words } = .refused .imageRefused := if_pos h

/-- The address of a word of an image that fits does not wrap. -/
theorem peek_machineOf_word (hfits : origin.toNat + words.length ≤ 65536) {k : Nat} (hk : k < words.length) :
    (p.machineOf origin words).peek (origin + BitVec.ofNat 16 k) = words[k] := by
  have haddr : (origin + BitVec.ofNat 16 k).toNat = origin.toNat + k := by bv_omega
  rw [State.peek, haddr]
  exact Memory.read_writeWords_getElem hk

theorem peek_machineOf_outside {a : Word} (h : a.toNat < origin.toNat ∨ origin.toNat + words.length ≤ a.toNat) :
    (p.machineOf origin words).peek a = Memory.read p.initMem a.toNat :=
  h.elim Memory.read_writeWords_below Memory.read_writeWords_above

theorem machineOf_inv (hfits : origin.toNat + words.length ≤ 65536) (hcfg : p.cfg.wf) (hmem : Memory.wf p.initMem) :
    (p.machineOf origin words).Inv :=
  ⟨Memory.wf_writeWords hmem hfits, hcfg⟩

/-! ## The statements -/

/-- Settles O58: `new` answers by whether the image fits, and the machine's memory is the initial one with the image's
words written. -/
theorem newBuildsTheMachine : Obligations.NewBuildsTheMachine := fun p origin words =>
  ⟨fun hfits => ⟨p.machineOf origin words, new_of_fits hfits, fun _ => peek_machineOf_word hfits,
    fun _ => peek_machineOf_outside, rfl, rfl, rfl, rfl, rfl, rfl, rfl, machineOf_inv hfits⟩, new_of_runs_past⟩

/-- Settles O59: the empty image fits, and its machine is the one after reset. -/
theorem resetIsNewOfTheEmptyImage : Obligations.ResetIsNewOfTheEmptyImage := new_of_fits (by decide)

end Sys2Proof.Machine
end
